-- ==== Sys2Proof/Word.lean ====
section
/-! DEFINITION. The word types of AD32: bytes, 32-bit registers and responses, 64-bit command words, 128-bit beats.
Every value is unsigned (spec 00_scope R7). -/

namespace Sys2Proof

/-- A byte of a buffer, 0 to 255 (20_memory R51). -/
abbrev Byte := BitVec 8

/-- A register, an accumulator, a length or a response word: 32 bits (00_scope R5 `ACC_W`, R6 `LEN_W` and `RSP_W`). -/
abbrev Word := BitVec 32

/-- A word of the command channel: 64 bits (00_scope R6 `CMD_W`, 30_encoding R70). -/
abbrev CmdWord := BitVec 64

/-- A beat of the data channel: 128 bits, 16 lanes of 8 bits (00_scope R6 `DATA_W`, 20_memory R53). -/
abbrev Beat := BitVec 128

/-- The working pair `(a, b)` of an UPDATE, or the state `(s1, s2)` (00_scope R8). -/
abbrev Pair := Word × Word

end Sys2Proof
end

