-- ==== Sys2Proof/Syntax.lean ====
section
/-! DEFINITION. The commands of AD32: one constructor for each row of spec/opcode_table.json. -/

namespace Sys2Proof

/-- The four numbered registers (spec 10_state R20). Numbers 4 to 255 name no register (30_encoding R73). -/
inductive Reg where
  /-- Register 0, storage. -/
  | s1
  /-- Register 1, storage. -/
  | s2
  /-- Register 2, the read-only packed checksum. -/
  | sum
  /-- Register 3, the read-only status register. -/
  | sr
deriving DecidableEq, Repr

/-- The causes of the illegal command fault (60_exceptions R161). Code 0, no fault, is never raised and is no cause. -/
inductive Cause where
  /-- Code 1. -/
  | illegalOpcode
  /-- Code 2. -/
  | illegalRegister
  /-- Code 3. -/
  | reservedNotZero
deriving DecidableEq, Repr

/-- The commands (30_encoding R72). -/
inductive Instr where
  /-- `INIT`: set the state to the identity state (40_state_commands R101). -/
  | init
  /-- `WR r, #v`: write a register (R102). -/
  | wr (r : Reg) (v : Word)
  /-- `RD r`: send a register's value to the host (R103). -/
  | rd (r : Reg)
  /-- `UPDATE #len`: fold the next `len` bytes of the data channel into the state (41_update R120). -/
  | update (len : Word)
deriving DecidableEq, Repr

end Sys2Proof
end

