-- ==== Sys2Proof/WellFormed.lean ====
section
/-! DEFINITION. Which terms of `Instr` are commands of the hardware: `WR` accepts registers 0 and 1 only
(spec 30_encoding R73). Every other operand is free: any 32-bit `v`, any 32-bit `len`, any of the four registers to
`RD`. -/

namespace Sys2Proof

/-- The registers `WR` accepts (10_state R26). -/
def Reg.writable : Reg → Bool
  | .s1 => true
  | .s2 => true
  | .sum => false
  | .sr => false

/-- The term is one of the legal commands of 30_encoding R79. -/
def Instr.wf : Instr → Bool
  | .init => true
  | .wr r _ => r.writable
  | .rd _ => true
  | .update _ => true

end Sys2Proof
end

