-- ==== Sys2Proof/Decode.lean ====
section
/-! DEFINITION. The decoder of spec 30_encoding R79, total on 64-bit words, and after it the encoder, written from
rules R71 to R78. -/

namespace Sys2Proof

/-- `OPC`, bits 63:56 (R71). -/
def opcField (w : CmdWord) : BitVec 8 := w.extractLsb' 56 8

/-- `REG`, bits 55:48 (R71). -/
def regField (w : CmdWord) : BitVec 8 := w.extractLsb' 48 8

/-- `RSV`, bits 47:32 (R71). -/
def rsvField (w : CmdWord) : BitVec 16 := w.extractLsb' 32 16

/-- `IMM`, bits 31:0 (R71), taken as it stands (R74). -/
def immField (w : CmdWord) : Word := w.extractLsb' 0 32

/-- What the decoder says of a word (R79): a command, or illegal with a cause. -/
inductive Verdict where
  /-- The word is this command. -/
  | command (i : Instr)
  /-- The word is no command; executing it raises the fault with this cause (R80). -/
  | illegal (c : Cause)
deriving DecidableEq, Repr

/-- The register a `REG` value names (R73). The decoder uses it only after its register test, so the last line is
reached for 3 alone. -/
def regNamed (n : BitVec 8) : Reg :=
  if n = 0#8 then .s1
  else if n = 1#8 then .s2
  else if n = 2#8 then .sum
  else .sr

/-- `Decode(w)` of R79. The tests are made in the order written there, and the first that applies decides: that order
is the priority of the causes (60_exceptions R164). -/
def decode (w : CmdWord) : Verdict :=
  let opc := opcField w
  let reg := regField w
  let rsv := rsvField w
  let imm := immField w
  if opc ≠ 0x01#8 ∧ opc ≠ 0x02#8 ∧ opc ≠ 0x03#8 ∧ opc ≠ 0x04#8 then .illegal .illegalOpcode
  else if opc = 0x02#8 ∧ 1 < reg.toNat then .illegal .illegalRegister
  else if opc = 0x03#8 ∧ 3 < reg.toNat then .illegal .illegalRegister
  else if rsv ≠ 0#16 then .illegal .reservedNotZero
  else if (opc = 0x01#8 ∨ opc = 0x04#8) ∧ reg ≠ 0#8 then .illegal .reservedNotZero
  else if (opc = 0x01#8 ∨ opc = 0x03#8) ∧ imm ≠ 0#32 then .illegal .reservedNotZero
  else if opc = 0x01#8 then .command .init
  else if opc = 0x02#8 then .command (.wr (regNamed reg) imm)
  else if opc = 0x03#8 then .command (.rd (regNamed reg))
  else .command (.update imm)

/-- A table word of `nbits` bits as a command word: the bits above `nbits` are 0. A command is one 64-bit number on the
command channel (R70), so no byte order enters. -/
def tableWord (nbits w : Nat) : CmdWord := BitVec.ofNat 64 (w % 2 ^ nbits)

/-- The command the decoder reads from a table word, none where it refuses the word. -/
def decodeTableWord (nbits w : Nat) : Option Instr :=
  match decode (tableWord nbits w) with
  | .command i => some i
  | .illegal _ => none

/-- The number of a register (R73). -/
def Reg.number : Reg → BitVec 8
  | .s1 => 0#8
  | .s2 => 1#8
  | .sum => 2#8
  | .sr => 3#8

/-- The word with the given fields and `RSV` zero (R71). -/
def cmdWord (opc reg : BitVec 8) (imm : Word) : CmdWord := opc ++ reg ++ 0#16 ++ imm

/-- The word of a command (R75 to R78). For an ill-formed `WR` it is the word R73 gives to `WR` of that register
number, which the decoder refuses. -/
def encode : Instr → CmdWord
  | .init => cmdWord 0x01#8 0#8 0#32
  | .wr r v => cmdWord 0x02#8 r.number v
  | .rd r => cmdWord 0x03#8 r.number 0#32
  | .update n => cmdWord 0x04#8 0#8 n

end Sys2Proof
end

