-- ==== Sys2Proof/Config.lean ====
section
/-! DEFINITION. The constants the source fixes (spec 00_scope R5) and the parameters it leaves open that the core
depends on (00_scope R6): the queue depths and `OOR_MODEL`, each at the default the spec offers, each an argument of the
operations that depend on it. -/

namespace Sys2Proof

/-- The values of `OOR_MODEL` (R6, 93 U1): what an UPDATE of one byte or more gives from a state with `S1` or `S2` at
65521 or more. -/
inductive OorModel where
  /-- The pair rules R120 to R132 compute, with additions modulo 2^32: the hardware of this spec (41_update R141). -/
  | wrap32
  /-- Any pair below 65521. -/
  | anyInRange
deriving DecidableEq, Repr

namespace Config

/-- `MOD`, the modulus of both sums (R5): "the prime 65521". -/
def modulus : Nat := 65521

/-- `BLOCK_SIZE` (R5): bytes accumulated between two mandatory reductions in the long regime. It is the Adler-32
deferred-reduction bound: the largest block length for which the second accumulator cannot pass 2^32 from any valid
state (audited in 41_update R136). -/
def blockSize : Nat := 5552

/-- `GROUP` (R5): bytes per vector group, and the threshold between the short and the long regime. -/
def groupSize : Nat := 16

/-- `GROUPS_PER_BLOCK` (R5): `BLOCK_SIZE / GROUP`, an exact division. -/
def groupsPerBlock : Nat := 347

/-- `INIT_S1` (R5). -/
def initS1 : Word := 1#32

/-- `INIT_S2` (R5). -/
def initS2 : Word := 0#32

/-- `CMD_DEPTH` (R6): how many words the command channel holds, `none` for no bound. DESIGN CHOICE (log 4), the
default the spec offers a model (93 U12). -/
def cmdDepth : Option Nat := none

/-- `DATA_DEPTH` (R6), as `cmdDepth`. DESIGN CHOICE (log 4). -/
def dataDepth : Option Nat := none

/-- `RSP_DEPTH` (R6), as `cmdDepth`. DESIGN CHOICE (log 4). -/
def rspDepth : Option Nat := none

/-- `OOR_MODEL` (R6), an argument of `updateUnder` and `runUpdate`. DESIGN CHOICE (log 3): the spec's default, which is
the value 41_update R141 gives AD32. -/
def oorModel : OorModel := .wrap32

/-- The free values of `anyInRange` (93 U1): the working pair `(a, b)` after a beat of an UPDATE that began out of range.
The arguments are all that the machine holds while an UPDATE runs (10_state R30, R35): its start `(S1, S2)`, the pair before
the beat, `n`, `p`, and the buffer bytes of the beat. So the same `S1`, `S2`, `LEN` and bytes give the same result, whenever
the beats come (41_update R145). It has no body: nothing can be proved of its values (log 3). -/
opaque outOfRangeBeat (start work : Pair) (n p : Word) (bytes : List Byte) : Pair

end Config

end Sys2Proof
end

