-- ==== Sys2Proof/Machine/State.lean ====
section
/-! DEFINITION. The state of AD32: everything spec 10_state gives the machine, and nothing else (R35). -/

namespace Sys2Proof.Machine

/-- The scratch of an UPDATE between two beats (10_state R30): the working copies `a`, `b`, the length `n` and the
count `p` of bytes consumed so far. The beat in hand, `V`, lives inside one step (`takeBeat`) and is not held. -/
structure UpdateScratch where
  a : Word
  b : Word
  n : Word
  p : Word
deriving DecidableEq, Repr

/-- The command in progress (70_reset_and_hazards R190): a command that waits for its input or for room
(60_exceptions R173). `INIT` and `WR` never wait. -/
inductive Progress where
  /-- A `RD` of this register waits for room in the response channel (93 U11; log 10). -/
  | read (r : Reg)
  /-- An UPDATE waits for its next beat (20_memory R64; log 2). -/
  | update (u : UpdateScratch)
deriving DecidableEq, Repr

/-- The machine's state. The three queues hold their oldest item first (10_state R34). -/
structure State where
  /-- Register 0, `S1` (R21). -/
  s1 : Word
  /-- Register 1, `S2` (R22). -/
  s2 : Word
  /-- `SR.F`, the fault flag (R25, R27). -/
  f : Bool
  /-- `SR.CAUSE` (R25). -/
  cause : BitVec 2
  /-- The command in progress, if any (R30, 70 R190). -/
  progress : Option Progress
  /-- The command channel (R34). -/
  cmd : List CmdWord
  /-- The data channel (R34). -/
  data : List Beat
  /-- The response channel (R34). -/
  rsp : List Word
deriving DecidableEq, Repr

/-- The reasons a step stops with a fault: there are none. No command fails (60_exceptions R160), an illegal word takes
the fault entry of R165, which is a next state, and a missing item makes the core wait (R173). Safe (log 11). -/
inductive Fault where
deriving DecidableEq, Repr

/-- The reasons a step is refused. -/
inductive Refusal where
  /-- Raised by an arm of `exec` whose command has no meaning yet; no arm is such. Safe: nothing follows from it. -/
  | notModelled (mnemonic : String)
deriving DecidableEq, Repr

/-- The machine right after reset (10_state R28, 70 R190). -/
def State.reset : State where
  s1 := Config.initS1
  s2 := Config.initS2
  f := false
  cause := 0#2
  progress := none
  cmd := []
  data := []
  rsp := []

end Sys2Proof.Machine
end

