-- ==== Sys2Proof/Machine/Flags.lean ====
section
/-! DEFINITION. The one flag of AD32 and the status register that shows it (spec 10_state R25, R27). No command writes
a flag. -/

namespace Sys2Proof.Machine

/-- The value `SR.CAUSE` takes for a cause (60_exceptions R161). -/
def causeCode : Cause → BitVec 2
  | .illegalOpcode => 1#2
  | .illegalRegister => 2#2
  | .reservedNotZero => 3#2

/-- `SR` as it is read: `zext_32({CAUSE, F})`, `F` in bit 0, `CAUSE` in bits 2:1, zero above (10_state R25,
40_state_commands R103). -/
def State.sr (s : State) : Word := (s.cause ++ BitVec.ofBool s.f).setWidth 32

end Sys2Proof.Machine
end

