-- ==== Sys2Proof/Machine/Operands.lean ====
section
/-! DEFINITION. The operand forms of AD32: a numbered register (spec 10_state R20, R26) and the byte lanes of a beat
(20_memory R53, R54), alone and as the buffer of an UPDATE. The immediate of `WR` and UPDATE is taken as it stands (30_encoding R74). -/

namespace Sys2Proof.Machine

/-- `pack(p, q) = ((q << 16) mod 2^32) | p` (00_scope R9). -/
def pack (p q : Word) : Word := (q <<< 16) ||| p

/-- A read of a numbered register; it has no side effect (10_state R24 to R26). -/
def State.readReg (s : State) : Reg → Word
  | .s1 => s.s1
  | .s2 => s.s2
  | .sum => pack s.s1 s.s2
  | .sr => s.sr

/-- A write of a numbered register. The views `SUM` and `SR` have no storage (10_state R20): nothing is written, and
`execWr` takes the fault R26 names instead. -/
def State.writeReg (s : State) (r : Reg) (v : Word) : State :=
  match r with
  | .s1 => { s with s1 := v }
  | .s2 => { s with s2 := v }
  | .sum => s
  | .sr => s

/-- `lane(V, i) = V[8*i + 7 : 8*i]` (00_scope R10). -/
def lane (v : Beat) (i : Nat) : Byte := v.extractLsb' (8 * i) 8

/-- Lanes 0 to `k - 1` of a beat, lane 0 first: the first byte in buffer order (20_memory R53). -/
def lanes (v : Beat) (k : Nat) : List Byte := (List.range k).map (lane v)

/-- `ceil(n / 16)`, the beats an UPDATE of length `n` consumes (20_memory R54). -/
def beatsNeeded (n : Nat) : Nat := (n + 15) / 16

/-- The buffer of an UPDATE of length `n` whose beats lead the list: beat `k` holds `buf[16*k + i]` in lane `i`
(20_memory R53, R54). -/
def bufferOf (n : Nat) (d : List Beat) : List Byte := (d.flatMap (fun v => lanes v 16)).take n

end Sys2Proof.Machine
end

