-- ==== Sys2Proof/Machine/Ops.lean ====
section
/-! DEFINITION. The shared operations: the arithmetic (spec 00_scope R9), the steps of UPDATE (41_update R122 to R125),
the response channel (00_scope R10, 10_state R34), and taking the one exception (60_exceptions R165). There is no
return from it: only reset leaves the faulted state (R167). AD32 has no memory (20_memory R50), so there is no memory
operation. -/

namespace Sys2Proof.Machine

/-- `add32(p, q) = (p + q) mod 2^32` (00_scope R9): it wraps, silently (41_update R121). -/
def add32 (p q : Word) : Word := p + q

/-- `red(p) = p mod 65521` (00_scope R9). -/
def red (p : Word) : Word := BitVec.ofNat 32 (p.toNat % Config.modulus)

/-- `StepR`, the reduced byte step (41_update R122). -/
def stepR (q : Pair) (x : Byte) : Pair :=
  let a := red (add32 q.1 (x.setWidth 32))
  (a, red (add32 q.2 a))

/-- `StepU`, the unreduced byte step (R123). -/
def stepU (q : Pair) (x : Byte) : Pair :=
  let a := add32 q.1 (x.setWidth 32)
  (a, add32 q.2 a)

/-- `Reduce` (R124). -/
def reduce (q : Pair) : Pair := (red q.1, red q.2)

/-- `Group` (R125): `StepU` on the 16 lanes in lane order. -/
def group (q : Pair) (v : Beat) : Pair := (lanes v Config.groupSize).foldl stepU q

/-- A queue of the given depth (`none` for unbounded) has room for another item (10_state R34). -/
def hasRoom {α : Type} (depth : Option Nat) (q : List α) : Bool :=
  match depth with
  | none => true
  | some d => decide (q.length < d)

/-- `Respond` of a register's value (00_scope R10, 40_state_commands R103) on a response channel of the given depth.
Without room the command waits, in progress (93 U11): the registers cannot change meanwhile, so the word it sends then
is the one it would have sent now (log 10). -/
def respond (depth : Option Nat) (r : Reg) (s : State) : State :=
  if hasRoom depth s.rsp then { s with rsp := s.rsp ++ [s.readReg r] }
  else { s with progress := some (.read r) }

/-- `raise Fault(c)` (60_exceptions R165): "It does this and nothing else". -/
def raiseFault (c : Cause) (s : State) : State := { s with f := true, cause := causeCode c }

end Sys2Proof.Machine
end

