-- ==== Sys2Proof/Machine/StateCommands.lean ====
section
/-! DEFINITION. The meanings of `INIT`, `WR` and `RD` (spec 40_state_commands R101 to R103), each once the word is
decoded; the command loop has taken the word from the channel already (R100). -/

namespace Sys2Proof.Machine

/-- `INIT` (R101): `S1 <- 1`, `S2 <- 0`. -/
def execInit (s : State) : Host.Outcome State Fault Refusal :=
  .next { s with s1 := Config.initS1, s2 := Config.initS2 }

/-- `WR r, #v` (R102): all 32 bits are written, unchecked. The ill-formed forms `WR SUM` and `WR SR`, which no word
decodes to, raise `Fault(2)` as R26 and 92 D26 say of them (log 6). -/
def execWr (r : Reg) (v : Word) (s : State) : Host.Outcome State Fault Refusal :=
  if r.writable then .next (s.writeReg r v) else .next (raiseFault .illegalRegister s)

/-- `RD r` (R103): one response word, no register changed. -/
def execRd (r : Reg) (s : State) : Host.Outcome State Fault Refusal :=
  .next (respond Config.rspDepth r s)

end Sys2Proof.Machine
end

