-- ==== Sys2Proof/Machine/Update.lean ====
section
/-! DEFINITION. The meaning of UPDATE (spec 41_update R120 to R134), beat by beat, so that an UPDATE which waits for a
beat (20_memory R64) goes on where it stood. `Sys2Proof.Machine.updateRegimes` (Machine/Regimes.lean) is the
pseudocode of R126 to R132 as it is written, and the two are stated equal. -/

namespace Sys2Proof.Machine

/-- The short regime (R126). -/
def UpdateScratch.isShort (u : UpdateScratch) : Bool := decide (u.n.toNat < Config.groupSize)

/-- Every byte is consumed. -/
def UpdateScratch.isDone (u : UpdateScratch) : Bool := decide (u.n.toNat ≤ u.p.toNat)

/-- The one beat of a short update (R128): lanes 0 to `n - 1`, `StepR` each. -/
def takeShort (u : UpdateScratch) (v : Beat) : UpdateScratch :=
  let q := (lanes v u.n.toNat).foldl stepR (u.a, u.b)
  { u with a := q.1, b := q.2, p := u.n }

/-- A full beat of a long update (R130, R131): `Group`, and `Reduce` where this beat ends a full block. -/
def takeGroup (u : UpdateScratch) (v : Beat) : UpdateScratch :=
  let p := u.p + BitVec.ofNat 32 Config.groupSize
  let g := group (u.a, u.b) v
  let q := if p.toNat % Config.blockSize = 0 then reduce g else g
  { u with a := q.1, b := q.2, p := p }

/-- The partial beat of a long update (R132): lanes 0 to `(n mod 16) - 1`, `StepU` each. -/
def takeTail (u : UpdateScratch) (v : Beat) : UpdateScratch :=
  let q := (lanes v (u.n.toNat % Config.groupSize)).foldl stepU (u.a, u.b)
  { u with a := q.1, b := q.2, p := u.n }

/-- What an UPDATE does with its next beat (the table of R134). -/
def takeBeat (u : UpdateScratch) (v : Beat) : UpdateScratch :=
  if u.isShort then takeShort u v
  else if u.p.toNat + Config.groupSize ≤ u.n.toNat then takeGroup u v
  else takeTail u v

/-- Take beats with `take` until every byte is consumed or the channel runs dry. -/
def takeBeatsBy (take : UpdateScratch → Beat → UpdateScratch) (u : UpdateScratch) : List Beat → UpdateScratch × List Beat
  | [] => (u, [])
  | v :: d => if u.isDone then (u, v :: d) else takeBeatsBy take (take u v) d

/-- The same with the steps of the rules. -/
def takeBeats (u : UpdateScratch) (d : List Beat) : UpdateScratch × List Beat := takeBeatsBy takeBeat u d

/-- The pair an UPDATE leaves: a long update ends with one `Reduce` (R132), a short one is reduced already (R128). -/
def finalPair (u : UpdateScratch) : Pair :=
  if u.isShort then (u.a, u.b) else reduce (u.a, u.b)

/-- The scratch at the start of an UPDATE: `a <- S1`, `b <- S2`, `n <- LEN`, `p <- 0` (10_state R30). -/
def startUpdate (n : Word) (s : State) : UpdateScratch := { a := s.s1, b := s.s2, n := n, p := 0#32 }

/-- The value of a non-empty UPDATE that starts from `q` is open: under `anyInRange`, from a start that is not valid
(00_scope R6, 93 U1; log 3). Under `wrap32` it never is (R141). -/
def valueIsOpen (m : OorModel) (q : Pair) : Bool :=
  match m with
  | .wrap32 => false
  | .anyInRange => !decide (q.1.toNat < Config.modulus ∧ q.2.toNat < Config.modulus)

/-- A beat of an UPDATE whose value is open: it counts as `takeBeat` does, and the working pair is free. The lanes of no
buffer byte have no part in it (20_memory R55). -/
def takeOpen (start : Pair) (u : UpdateScratch) (v : Beat) : UpdateScratch :=
  let x := takeBeat u v
  let q := Config.outOfRangeBeat start (u.a, u.b) u.n u.p (lanes v (x.p.toNat - u.p.toNat))
  { x with a := q.1, b := q.2 }

/-- What an UPDATE that starts from `start` does with its next beat, `OOR_MODEL` being `m`. -/
def takeUnder (m : OorModel) (start : Pair) : UpdateScratch → Beat → UpdateScratch :=
  if valueIsOpen m start then takeOpen start else takeBeat

/-- The pair it leaves: below 65521 also where the value is open (R135). -/
def finalUnder (m : OorModel) (start : Pair) (u : UpdateScratch) : Pair :=
  if valueIsOpen m start then reduce (u.a, u.b) else finalPair u

/-- Run an UPDATE from its scratch as far as the data channel allows, `OOR_MODEL` being `m`: `S1` and `S2` are written once,
at its end (R133), so until then they hold its start; an UPDATE whose next beat is missing waits, and nothing but its
scratch and the channel has changed (93 U9). -/
def runUpdate (m : OorModel) (u : UpdateScratch) (s : State) : State :=
  let start := (s.s1, s.s2)
  let r := takeBeatsBy (takeUnder m start) u s.data
  if r.1.isDone then
    let q := finalUnder m start r.1
    { s with s1 := q.1, s2 := q.2, data := r.2 }
  else { s with data := r.2, progress := some (.update r.1) }

/-- The empty regime (R127): the incoming state is not read, no beat is consumed. -/
def emptyUpdate (s : State) : State := { s with s1 := Config.initS1, s2 := Config.initS2 }

/-- `UPDATE #n` (R120), `OOR_MODEL` being `m`. -/
def updateUnder (m : OorModel) (n : Word) (s : State) : Host.Outcome State Fault Refusal :=
  if n = 0#32 then .next (emptyUpdate s) else .next (runUpdate m (startUpdate n s) s)

/-- `UPDATE #n` of the machine: `updateUnder` with the `OOR_MODEL` of Config. -/
def execUpdate (n : Word) (s : State) : Host.Outcome State Fault Refusal := updateUnder Config.oorModel n s

end Sys2Proof.Machine
end

