-- ==== Sys2Proof/Machine/Dispatch.lean ====
section
/-! DEFINITION. `execute d` of the command loop (spec 40_state_commands R100): one arm for each command. -/

namespace Sys2Proof.Machine

def exec (i : Instr) (s : State) : Host.Outcome State Fault Refusal :=
  match i with
  | .init => Sys2Proof.Machine.execInit s
  | .wr r v => Sys2Proof.Machine.execWr r v s
  | .rd r => Sys2Proof.Machine.execRd r s
  | .update len => Sys2Proof.Machine.execUpdate len s

end Sys2Proof.Machine
end

