-- ==== Sys2Proof/Machine/Loop.lean ====
section
/-! DEFINITION. The command loop (spec 40_state_commands R100), one turn at a time: go on with the command in progress,
or take the oldest word, decode it and execute it. A turn with nothing to do is a wait and changes nothing (log 1). -/

namespace Sys2Proof.Machine

/-- `Faulted(d)` (60_exceptions R166): `RD SR` answers, anything else is discarded. -/
def faulted (d : Verdict) (s : State) : Host.Outcome State Fault Refusal :=
  if d = .command (.rd .sr) then exec (.rd .sr) s else .next s

/-- The body of R100's loop on a decoded word that has been taken from the channel. -/
def serve (d : Verdict) (s : State) : Host.Outcome State Fault Refusal :=
  if s.f then faulted d s
  else
    match d with
    | .illegal c => .next (raiseFault c s)
    | .command i => exec i s

/-- Go on with a waiting command. -/
def resume (g : Progress) (s : State) : State :=
  match g with
  | .read r => respond Config.rspDepth r { s with progress := none }
  | .update u => runUpdate Config.oorModel u { s with progress := none }

/-- One turn of the loop. A command in progress comes first: the next command starts only after it has finished
(20_memory R60). -/
def turn (s : State) : Host.Outcome State Fault Refusal :=
  match s.progress with
  | some g => .next (resume g s)
  | none =>
    match s.cmd with
    | [] => .next s
    | w :: rest => serve (decode w) { s with cmd := rest }

/-- The state in which the next turn takes the given word: no command in progress, and the word at the head of the
command channel. A program is loaded from outside, through that channel (log 8). -/
def placeWord (w : CmdWord) (s : State) : State := { s with progress := none, cmd := w :: s.cmd }

end Sys2Proof.Machine
end

