-- ==== Sys2Proof/Machine/Step.lean ====
section
/-! DEFINITION. One step of the core is one turn of the command loop (spec 40_state_commands R100). -/

namespace Sys2Proof.Machine

/-- One step. -/
def step (s : State) : Host.Outcome State Fault Refusal := turn s

/-- The state whose next step takes and runs the table word `w` of `nbits` bits. -/
def State.withFetchWord (s : State) (nbits w : Nat) : State := placeWord (tableWord nbits w) s

end Sys2Proof.Machine
end

