-- ==== Sys2Proof/Machine/Assembler.lean ====
section
/-! DEFINITION. The pseudo-commands and the `.data` packing of spec 30_encoding R82, R83: what the host sends for a
program. The text syntax itself is notation and is not modelled. -/

namespace Sys2Proof.Machine

/-- A beat made of up to 16 bytes, the first in lane 0, zeros in the unused lanes (R82, 20_memory R53, R54). -/
def packBeat (bytes : List Byte) : Beat :=
  bytes.foldr (fun x v => (v <<< 8) ||| x.setWidth 128) 0#128

/-- `k` beats made of the bytes, 16 at a time. -/
def packBeatsN : Nat → List Byte → List Beat
  | 0, _ => []
  | k + 1, bytes => packBeat (bytes.take 16) :: packBeatsN k (bytes.drop 16)

/-- The `ceil(n / 16)` beats of a buffer of `n` bytes (R82). -/
def packBeats (bytes : List Byte) : List Beat := packBeatsN ((bytes.length + 15) / 16) bytes

/-- The pseudo-commands of R83. -/
inductive Pseudo where
  /-- `LDST #v1, #v2`: pass a state in. -/
  | ldst (v1 v2 : Word)
  /-- `RDST`: take a state out, `S1` first. -/
  | rdst
  /-- `RDSUM`: take the packed checksum out. -/
  | rdsum
  /-- `CALL #v1, #v2, bytes`: the source's by-value contract. -/
  | call (v1 v2 : Word) (bytes : List Byte)
deriving DecidableEq, Repr

/-- The commands a pseudo-command stands for (R83). `CALL` with a buffer of 2^32 bytes or more has a length that does not
fit `LEN` (00_scope R6), and the spec does not say what it stands for: sending the length modulo 2^32, with all the beats,
is the model's choice there (log 16). -/
def expand : Pseudo → List Instr
  | .ldst v1 v2 => [.wr .s1 v1, .wr .s2 v2]
  | .rdst => [.rd .s1, .rd .s2]
  | .rdsum => [.rd .sum]
  | .call v1 v2 bytes =>
    [.wr .s1 v1, .wr .s2 v2, .update (BitVec.ofNat 32 bytes.length), .rd .s1, .rd .s2]

/-- The words the host enters in the command channel. -/
def Pseudo.words (c : Pseudo) : List CmdWord := (expand c).map encode

/-- The beats the host enters in the data channel. -/
def Pseudo.beats : Pseudo → List Beat
  | .ldst _ _ => []
  | .rdst => []
  | .rdsum => []
  | .call _ _ bytes => packBeats bytes

end Sys2Proof.Machine
end

