-- ==== Sys2Proof/Machine/Ports.lean ====
section
/-! DEFINITION. What the host can do to AD32 (spec 10_state R34, 60_exceptions R171, 70_reset_and_hazards R190), and
runs in which host actions and core steps mix in any order. -/

namespace Sys2Proof.Machine

/-- Enter a word in the command channel; on a full channel the host has to wait, so nothing happens (R34). -/
def enterCommand (depth : Option Nat) (w : CmdWord) (s : State) : State :=
  if hasRoom depth s.cmd then { s with cmd := s.cmd ++ [w] } else s

/-- Enter a beat in the data channel. -/
def enterBeat (depth : Option Nat) (v : Beat) (s : State) : State :=
  if hasRoom depth s.data then { s with data := s.data ++ [v] } else s

/-- The word the host takes from the response channel, if there is one: the oldest. -/
def oldestResponse (s : State) : Option Word := s.rsp.head?

/-- Take that word: it leaves the channel (20_memory R59). -/
def takeResponse (s : State) : State := { s with rsp := s.rsp.tail }

/-- Something that happens: a step of the core, or one of the host's four liberties (R171). -/
inductive Event where
  /-- The core makes a step. -/
  | core
  /-- The host enters a command word. -/
  | command (w : CmdWord)
  /-- The host enters a beat. -/
  | beat (v : Beat)
  /-- The host takes a response. -/
  | take
  /-- The host asserts reset: in every state, at once (70 R190, R192). -/
  | reset
deriving DecidableEq, Repr

/-- The effect of an event. -/
def applyEvent (e : Event) (s : State) : Host.Outcome State Fault Refusal :=
  match e with
  | .core => step s
  | .command w => .next (enterCommand Config.cmdDepth w s)
  | .beat v => .next (enterBeat Config.dataDepth v s)
  | .take => .next (takeResponse s)
  | .reset => .next State.reset

/-- A sequence of events, from first to last. -/
def runEvents : List Event → State → Host.Outcome State Fault Refusal
  | [], s => .next s
  | e :: es, s =>
    match applyEvent e s with
    | .next t => runEvents es t
    | .fault r => .fault r
    | .refused r => .refused r

end Sys2Proof.Machine
end

