-- ==== Sys2Proof/Machine/Regimes.lean ====
section
/-! DEFINITION. UPDATE's pseudocode of spec 41_update R126 to R132 as it is written, over the beats of the data channel
(the answer `none` means that a beat is missing), and the reference recurrence of R143. The machine runs
Machine/Update.lean; these are what the statements compare it with. -/

namespace Sys2Proof.Machine

/-- `k` times `V <- NextBeat(); (a, b) <- Group(a, b, V)`: the inner loop of R130, and `RemGroups` of R131. -/
def remGroups : Nat → Pair → List Beat → Option (Pair × List Beat)
  | 0, q, d => some (q, d)
  | _ + 1, _, [] => none
  | k + 1, q, v :: d => remGroups k (group q v) d

/-- `Blocks` (R130). -/
def blocks : Nat → Pair → List Beat → Option (Pair × List Beat)
  | 0, q, d => some (q, d)
  | k + 1, q, d =>
    match remGroups Config.groupsPerBlock q d with
    | none => none
    | some r => blocks k (reduce r.1) r.2

/-- `TailAndFinal` (R132). -/
def tailAndFinal (t : Nat) (q : Pair) (d : List Beat) : Option (Pair × List Beat) :=
  if t = 0 then some (reduce q, d)
  else
    match d with
    | [] => none
    | v :: d => some (reduce ((lanes v t).foldl stepU q), d)

/-- `Long` (R129). -/
def longRegime (n : Nat) (q : Pair) (d : List Beat) : Option (Pair × List Beat) :=
  match blocks (n / Config.blockSize) q d with
  | none => none
  | some r =>
    match remGroups (n % Config.blockSize / Config.groupSize) r.1 r.2 with
    | none => none
    | some r => tailAndFinal (n % Config.groupSize) r.1 r.2

/-- `Short` (R128). -/
def shortRegime (n : Nat) (q : Pair) (d : List Beat) : Option (Pair × List Beat) :=
  match d with
  | [] => none
  | v :: d => some ((lanes v n).foldl stepR q, d)

/-- The choice of regime (R126). -/
def updateRegimes (n : Nat) (q : Pair) (d : List Beat) : Option (Pair × List Beat) :=
  if n = 0 then some ((Config.initS1, Config.initS2), d)
  else if n < Config.groupSize then shortRegime n q d
  else longRegime n q d

/-- `Ref` (R143): the short regime's loop over a buffer of any length. -/
def ref (q : Pair) (buf : List Byte) : Pair := buf.foldl stepR q

end Sys2Proof.Machine
end

