-- ==== Sys2Proof/Safety.lean ====
section
/-! DEFINITION. What the statements speak of: valid states, the invariant of every reachable state, what an UPDATE may
leave under either reading of an out-of-range start, and the programs a host sends. -/

namespace Sys2Proof.Machine

/-- Both members are below the modulus: a valid pair (spec 00_scope R12). -/
def inRange (q : Pair) : Prop := q.1.toNat < Config.modulus ∧ q.2.toNat < Config.modulus

/-- The state `(S1, S2)` is valid (00_scope R12): the range invariant of 10_state R23. -/
def State.valid (s : State) : Prop := inRange (s.s1, s.s2)

/-- The scratch of an UPDATE that waits: some byte is missing, whole groups are consumed, and a short update has
consumed nothing (10_state R30, 41_update R134). -/
def UpdateScratch.wf (u : UpdateScratch) : Prop :=
  u.p.toNat < u.n.toNat ∧ u.p.toNat % 16 = 0 ∧ (u.n.toNat < 16 → u.p.toNat = 0)

/-- The command in progress fits the machine's mode: in the faulted state only `RD SR` is executed (60_exceptions
R166). -/
def Progress.fits (faulted : Bool) : Progress → Prop
  | .read r => faulted = true → r = .sr
  | .update u => faulted = false ∧ u.wf

/-- The invariant of AD32: `CAUSE` is 0 exactly when `F` is 0 (10_state R25), and the command in progress is one the
machine can be in. -/
def State.inv (s : State) : Prop :=
  (s.f = false ↔ s.cause = 0#2) ∧ ∀ g, s.progress = some g → g.fits s.f

/-- How large the unreduced sums of a waiting UPDATE can be when its start was valid: the bounds of 41_update R136 after
`m` bytes since the last reduction. -/
def UpdateScratch.bounded (u : UpdateScratch) : Prop :=
  let m := u.p.toNat % Config.blockSize
  u.a.toNat ≤ 65520 + 255 * m ∧ 2 * u.b.toNat ≤ 2 * 65520 + 2 * (m * 65520) + 255 * (m * (m + 1))

/-- The registers are valid, and so are the sums of a waiting UPDATE. -/
def State.sumsBounded (s : State) : Prop :=
  s.valid ∧ ∀ u, s.progress = some (.update u) → u.bounded

/-- The next step of the state takes a `WR` of 65521 or more, the only way to break the range invariant (10_state
R23). -/
def State.writesOutOfRange (s : State) : Prop :=
  s.progress = none ∧ s.f = false ∧
    ∃ w rest r v, s.cmd = w :: rest ∧ decode w = .command (.wr r v) ∧ Config.modulus ≤ v.toNat

/-- The pairs `r` an UPDATE of length `n` may leave, started from `q` with the beats `d`, under each reading. -/
def resultAllowed (m : OorModel) (n : Nat) (q : Pair) (d : List Beat) (r : Pair) : Prop :=
  match m with
  | .wrap32 => (updateRegimes n q d).map Prod.fst = some r
  | .anyInRange =>
    inRange r ∧ (n = 0 → r = (1#32, 0#32)) ∧ (0 < n → inRange q → r = ref q (bufferOf n d))

/-- `StepU` over the integers: the sums the two additions would give with no width. -/
def stepExact (q : Nat × Nat) (x : Byte) : Nat × Nat := (q.1 + x.toNat, q.2 + (q.1 + x.toNat))

/-- The sum of the bytes of a buffer. -/
def byteSum : List Byte → Nat
  | [] => 0
  | x :: xs => x.toNat + byteSum xs

/-- The weighted sum of 41_update R140: `n * buf[0] + (n-1) * buf[1] + ... + 1 * buf[n-1]`. -/
def weightedSum : List Byte → Nat
  | [] => 0
  | x :: xs => (xs.length + 1) * x.toNat + weightedSum xs

/-- The beats a list of commands consumes. -/
def beatsOf : List Instr → Nat
  | [] => 0
  | .init :: is => beatsOf is
  | .wr _ _ :: is => beatsOf is
  | .rd _ :: is => beatsOf is
  | .update n :: is => beatsNeeded n.toNat + beatsOf is

/-- The responses a list of commands sends. -/
def readsOf : List Instr → Nat
  | [] => 0
  | .init :: is => readsOf is
  | .wr _ _ :: is => readsOf is
  | .rd _ :: is => 1 + readsOf is
  | .update _ :: is => readsOf is

/-- A queue of the given depth has room for `k` more items. -/
def hasRoomFor {α : Type} (depth : Option Nat) (q : List α) (k : Nat) : Bool :=
  match depth with
  | none => true
  | some d => decide (q.length + k ≤ d)

/-- `k` steps of the core. -/
def runCore (k : Nat) (s : State) : Host.Outcome State Fault Refusal := Host.Core.run Sys2Proof.core k s

end Sys2Proof.Machine
end

