-- ==== Sys2Proof/Certificates/Slice0/Obligations.lean ====
section
/-! DEFINITION. The statements for the provers. Each docstring names the rules of spec/ it formalises. No statement is
about an implementation's schedule inside UPDATE (spec 41_update R142). Where a clause rests on a choice or an inference
of the model, the docstring names the log entry. -/

open Sys2Proof Sys2Proof.Machine

/-! ## Encoding and decoding -/

/-- Words written out from 30_encoding R75 to R80 decode to what they stand for. -/
def Obligations.SpecWordsDecodeAsWritten : Prop :=
  decode 0x0100000000000000#64 = .command .init ∧
  decode 0x0200000000000195#64 = .command (.wr .s1 405#32) ∧
  decode 0x02010000FFFFFFFF#64 = .command (.wr .s2 0xFFFFFFFF#32) ∧
  decode 0x0300000000000000#64 = .command (.rd .s1) ∧
  decode 0x0301000000000000#64 = .command (.rd .s2) ∧
  decode 0x0302000000000000#64 = .command (.rd .sum) ∧
  decode 0x0303000000000000#64 = .command (.rd .sr) ∧
  decode 0x0400000000000003#64 = .command (.update 3#32) ∧
  decode 0#64 = .illegal .illegalOpcode ∧
  decode 0x0304000100000001#64 = .illegal .illegalRegister ∧
  decode 0x0401000000000003#64 = .illegal .reservedNotZero

/-- R75 to R79: every well-formed command, with every operand at every value, is read back from its word. -/
def Obligations.DecodeOfEncodeIsTheCommand : Prop :=
  ∀ i : Instr, i.wf = true → decode (encode i) = .command i

/-- R75 to R79: a legal word is the word of exactly the command it decodes to, so no bit of it is dropped. -/
def Obligations.LegalWordIsItsCommandsEncoding : Prop :=
  ∀ (w : CmdWord) (i : Instr), decode w = .command i → i.wf = true ∧ encode i = w

/-- R75 to R79: the four match and mask pairs select exactly the words of the four commands. -/
def Obligations.LegalWordsAreTheMatchMaskWords : Prop :=
  ∀ w : CmdWord,
    (decode w = .command .init ↔ w &&& 0xFFFFFFFFFFFFFFFF#64 = 0x0100000000000000#64) ∧
    ((∃ r v, decode w = .command (.wr r v)) ↔ w &&& 0xFFFEFFFF00000000#64 = 0x0200000000000000#64) ∧
    ((∃ r, decode w = .command (.rd r)) ↔ w &&& 0xFFFCFFFFFFFFFFFF#64 = 0x0300000000000000#64) ∧
    ((∃ n, decode w = .command (.update n)) ↔ w &&& 0xFFFFFFFF00000000#64 = 0x0400000000000000#64)

/-- R80 with R161 and R164: the illegal words by cause, the fields read off the word's number; the lowest-numbered
cause that applies is the one reported. -/
def Obligations.IllegalWordsByCause : Prop :=
  ∀ w : CmdWord,
    let opc := w.toNat / 2 ^ 56
    let reg := w.toNat / 2 ^ 48 % 2 ^ 8
    let rsv := w.toNat / 2 ^ 32 % 2 ^ 16
    let imm := w.toNat % 2 ^ 32
    let badOpcode := opc = 0 ∨ 5 ≤ opc
    let badRegister := (opc = 2 ∧ 2 ≤ reg) ∨ (opc = 3 ∧ 4 ≤ reg)
    let badReserved := rsv ≠ 0 ∨ ((opc = 1 ∨ opc = 4) ∧ reg ≠ 0) ∨ ((opc = 1 ∨ opc = 3) ∧ imm ≠ 0)
    (decode w = .illegal .illegalOpcode ↔ badOpcode) ∧
    (decode w = .illegal .illegalRegister ↔ ¬ badOpcode ∧ badRegister) ∧
    (decode w = .illegal .reservedNotZero ↔ ¬ badOpcode ∧ ¬ badRegister ∧ badReserved)

/-- R82 with 20_memory R53 and R54: the beats packed for a buffer are `ceil(n / 16)` in number, carry its bytes in
buffer order, and hold zeros in the unused lanes of the last one. -/
def Obligations.PackedBeatsCarryTheBuffer : Prop :=
  ∀ bytes : List Byte,
    (packBeats bytes).length = beatsNeeded bytes.length ∧
    bufferOf bytes.length (packBeats bytes) = bytes ∧
    ∀ x ∈ ((packBeats bytes).flatMap (fun v => lanes v 16)).drop bytes.length, x = 0#8

/-! ## The command loop and the fault -/

/-- 40_state_commands R100: in the running state, with no command in progress, a step takes the oldest word; where it
decodes to a command, the step is that command's execution on the state without the word. -/
def Obligations.StepRunsTheDecodedCommand : Prop :=
  ∀ (s : State) (w : CmdWord) (rest : List CmdWord) (i : Instr),
    s.progress = none → s.f = false → s.cmd = w :: rest → decode w = .command i →
    step s = exec i { s with cmd := rest }

/-- 60_exceptions R165: an illegal word in the running state sets `F` and `CAUSE` and has no other effect but leaving
the channel. -/
def Obligations.IllegalWordEntersTheFaultedState : Prop :=
  ∀ (s : State) (w : CmdWord) (rest : List CmdWord) (c : Cause),
    s.progress = none → s.f = false → s.cmd = w :: rest → decode w = .illegal c →
    step s = .next { s with
      cmd := rest
      f := true
      cause := match c with
        | .illegalOpcode => 1#2
        | .illegalRegister => 2#2
        | .reservedNotZero => 3#2 }

/-- 60_exceptions R166: in the faulted state `RD SR` answers and every other word, legal or illegal, is discarded with
no effect; `SR` then reads 3, 5 or 7, by the cause. -/
def Obligations.FaultedStateDiscardsAllButReadSr : Prop :=
  ∀ (s : State) (w : CmdWord) (rest : List CmdWord),
    s.inv → s.progress = none → s.f = true → s.cmd = w :: rest →
    (decode w = .command (.rd .sr) → hasRoom Config.rspDepth s.rsp = true →
      step s = .next { s with cmd := rest, rsp := s.rsp ++ [s.sr] }) ∧
    (decode w ≠ .command (.rd .sr) → step s = .next { s with cmd := rest }) ∧
    ((s.cause = 1#2 ∧ s.sr = 3#32) ∨ (s.cause = 2#2 ∧ s.sr = 5#32) ∨ (s.cause = 3#2 ∧ s.sr = 7#32))

/-- 10_state R27 with 60_exceptions R165: a step changes the fault latch only by taking an illegal word in the running
state. -/
def Obligations.OnlyAnIllegalWordChangesTheLatch : Prop :=
  ∀ s t : State, step s = .next t →
    (t.f = s.f ∧ t.cause = s.cause) ∨
    (s.f = false ∧ s.progress = none ∧ t.f = true ∧
      ∃ w c, s.cmd = w :: t.cmd ∧ decode w = .illegal c ∧ t.cause = causeCode c)

/-- 60_exceptions R166 and R167: once `F` is set, no sequence of core steps and host actions without a reset changes
`S1`, `S2` or `SR`, consumes a beat, or sends a word other than `SR`. -/
def Obligations.FaultIsStickyUntilReset : Prop :=
  ∀ (es : List Event) (s : State), s.inv → s.f = true → Event.reset ∉ es →
    ∃ t, runEvents es s = .next t ∧ t.s1 = s.s1 ∧ t.s2 = s.s2 ∧ t.f = true ∧ t.cause = s.cause ∧
      (∃ more, t.data = s.data ++ more) ∧ ∀ v ∈ t.rsp, v ∈ s.rsp ∨ v = s.sr

/-- With no word to take the core waits, and an UPDATE whose next beat is missing waits (60_exceptions R173, 20_memory
R64). That a wait is a step which answers the same state is the model's choice (log 1); 93 U9 calls a beat that never
comes stuck. -/
def Obligations.WaitingCoreChangesNothing : Prop :=
  (∀ s : State, s.progress = none → s.cmd = [] → step s = .next s) ∧
  (∀ (s : State) (u : UpdateScratch), s.progress = some (.update u) → u.wf → s.data = [] → step s = .next s)

/-- 10_state R34, 20_memory R60, R61 and R63: the channels are first-in first-out. A step takes at most the oldest
word, takes beats from the front only, and appends at most one response; while a command is in progress no word is
taken. -/
def Obligations.ChannelsAreFifo : Prop :=
  ∀ s t : State, step s = .next t →
    (t.cmd = s.cmd ∨ ∃ w, s.cmd = w :: t.cmd) ∧
    (s.progress ≠ none → t.cmd = s.cmd) ∧
    (∃ k, t.data = s.data.drop k) ∧
    (t.rsp = s.rsp ∨ ∃ v, t.rsp = s.rsp ++ [v])

/-- No step of the core and no action of the host ends in a fault or a refusal. For the four decoded commands that is
60_exceptions R160. That an illegal word answers a next state (the fault entry of R165) is the model's inference (log 11),
and that a wait (R173) does is its choice (log 1), as is where host actions fall (log 14). -/
def Obligations.EveryEventAnswersANextState : Prop :=
  ∀ (e : Event) (s : State), ∃ t, applyEvent e s = .next t

/-- 60_exceptions R171 and 10_state R34: whatever the depths of the channels, a word or a beat the host enters goes last
when there is room and waits outside when there is none, and the host takes the oldest response. -/
def Obligations.HostPortsAreQueues : Prop :=
  ∀ (depth : Option Nat) (w : CmdWord) (v : Beat) (s : State),
    (hasRoom depth s.cmd = true → enterCommand depth w s = { s with cmd := s.cmd ++ [w] }) ∧
    (hasRoom depth s.cmd = false → enterCommand depth w s = s) ∧
    (hasRoom depth s.data = true → enterBeat depth v s = { s with data := s.data ++ [v] }) ∧
    (hasRoom depth s.data = false → enterBeat depth v s = s) ∧
    (∀ x rest, s.rsp = x :: rest → oldestResponse s = some x ∧ takeResponse s = { s with rsp := rest })

/-! ## Reset -/

/-- 10_state R28: every piece of state after reset, and the two views. -/
def Obligations.ResetStateIsAsStated : Prop :=
  State.reset.s1 = 1#32 ∧ State.reset.s2 = 0#32 ∧ State.reset.readReg .sum = 0x00000001#32 ∧
  State.reset.f = false ∧ State.reset.cause = 0#2 ∧ State.reset.readReg .sr = 0#32 ∧
  State.reset.cmd = [] ∧ State.reset.data = [] ∧ State.reset.rsp = [] ∧ State.reset.progress = none

/-- 70_reset_and_hazards R190 and R192: reset works in every state, the faulted state and the middle of a command among
them; the next step then serves the first word entered after it. -/
def Obligations.ResetWorksInEveryState : Prop :=
  ∀ s : State, ∃ t, applyEvent .reset s = .next t ∧
    t.s1 = 1#32 ∧ t.s2 = 0#32 ∧ t.f = false ∧ t.cause = 0#2 ∧ t.progress = none ∧
    t.cmd = [] ∧ t.data = [] ∧ t.rsp = [] ∧
    ∀ (d : Nat) (w : CmdWord) (i : Instr), decode w = .command i →
      step (enterCommand (some (d + 1)) w t) = exec i t

/-- 70_reset_and_hazards R193: reset, `INIT` and `UPDATE #0` all leave `(1, 0)`; the two commands touch neither `SR` nor
the channels and are discarded in the faulted state; reset clears `SR` and empties the channels in every state. -/
def Obligations.ThreeWaysToTheIdentityState : Prop :=
  (∀ s : State,
    (∃ t, exec .init s = .next t ∧ exec (.update 0#32) s = .next t ∧ t.s1 = 1#32 ∧ t.s2 = 0#32 ∧ t.sr = s.sr ∧
      t.cmd = s.cmd ∧ t.data = s.data ∧ t.rsp = s.rsp) ∧
    ∃ t, applyEvent .reset s = .next t ∧ t.s1 = 1#32 ∧ t.s2 = 0#32 ∧ t.sr = 0#32 ∧
      t.cmd = [] ∧ t.data = [] ∧ t.rsp = []) ∧
  (∀ (s : State) (w : CmdWord) (rest : List CmdWord),
    s.f = true → s.progress = none → s.cmd = w :: rest →
    decode w = .command .init ∨ decode w = .command (.update 0#32) → step s = .next { s with cmd := rest })

/-! ## The registers and their views -/

/-- 10_state R24: `RD SUM` answers `pack(S1, S2)` in 32 bits whatever the state, from the `S1` and `S2` it executes on;
no bit is lost when the state is valid; and `SUM` is read-only. That clause is about `exec` of the ill-formed term
`WR SUM`, which no word decodes to: that it takes the fault of R26 and changes neither `S1` nor `S2` is the model's
inference (log 6). -/
def Obligations.SumIsThePackedChecksum : Prop :=
  ∀ s : State,
    s.readReg .sum = (s.s2 <<< 16) ||| s.s1 ∧
    (hasRoom Config.rspDepth s.rsp = true →
      exec (.rd .sum) s = .next { s with rsp := s.rsp ++ [s.readReg .sum] }) ∧
    (∀ v, ∃ t, exec (.wr .sum v) s = .next t ∧ t.readReg .sum = s.readReg .sum ∧ t.s1 = s.s1 ∧ t.s2 = s.s2) ∧
    (s.valid →
      (s.readReg .sum).extractLsb' 16 16 = s.s2.extractLsb' 0 16 ∧
      (s.readReg .sum).extractLsb' 0 16 = s.s1.extractLsb' 0 16 ∧
      (s.readReg .sum).toNat = s.s2.toNat * 65536 + s.s1.toNat)

/-- 10_state R25: `F` is bit 0 of `SR`, `CAUSE` is bits 2:1, and bits 31:3 read as 0; the fault latch holds 1 and the
code of the cause after a fault; `RD SR` answers it; `CAUSE` is 0 exactly when `F` is 0 at reset and after every run of
core steps and host actions from reset. It is read-only: that clause is about `exec` of the ill-formed term `WR SR`, which
no word decodes to, and that its effect does not depend on the value is the model's inference (log 6). -/
def Obligations.SrShowsTheFaultLatch : Prop :=
  (∀ s : State,
    (s.readReg .sr).getLsbD 0 = s.f ∧ (s.readReg .sr).extractLsb' 1 2 = s.cause ∧
    (s.readReg .sr).extractLsb' 3 29 = 0#29) ∧
  (∀ s : State,
    (raiseFault .illegalOpcode s).sr = 3#32 ∧ (raiseFault .illegalRegister s).sr = 5#32 ∧
    (raiseFault .reservedNotZero s).sr = 7#32) ∧
  (∀ s : State,
    (hasRoom Config.rspDepth s.rsp = true → exec (.rd .sr) s = .next { s with rsp := s.rsp ++ [s.readReg .sr] }) ∧
    ∀ v v', exec (.wr .sr v) s = exec (.wr .sr v') s) ∧
  (∀ (es : List Event) (t : State), runEvents es State.reset = .next t → (t.cause = 0#2 ↔ t.f = false))

/-! ## INIT, WR and RD -/

/-- 40_state_commands R101: `INIT` sets the state to `(1, 0)` and changes nothing else, from every state. -/
def Obligations.InitSetsTheIdentityState : Prop :=
  ∀ s : State, exec .init s = .next { s with s1 := 1#32, s2 := 0#32 }

/-- 40_state_commands R102: `WR` stores all 32 bits of any value, unchecked, in the register it names and changes
nothing else. The last two clauses are about `exec` of the ill-formed terms `WR SUM` and `WR SR`, which no word decodes
to (such a word faults at decode): that `exec` gives them the same `Fault(2)` (10_state R26) with nothing written is the
model's inference (log 6). -/
def Obligations.WrStoresTheValue : Prop :=
  ∀ (s : State) (v : Word),
    exec (.wr .s1 v) s = .next { s with s1 := v } ∧
    exec (.wr .s2 v) s = .next { s with s2 := v } ∧
    exec (.wr .sum v) s = .next { s with f := true, cause := 2#2 } ∧
    exec (.wr .sr v) s = .next { s with f := true, cause := 2#2 }

/-- 40_state_commands R103: with room in the response channel, `RD` appends exactly one word, the register's value, and
changes nothing else. -/
def Obligations.RdSendsTheRegister : Prop :=
  ∀ s : State, hasRoom Config.rspDepth s.rsp = true →
    exec (.rd .s1) s = .next { s with rsp := s.rsp ++ [s.s1] } ∧
    exec (.rd .s2) s = .next { s with rsp := s.rsp ++ [s.s2] } ∧
    exec (.rd .sum) s = .next { s with rsp := s.rsp ++ [(s.s2 <<< 16) ||| s.s1] } ∧
    exec (.rd .sr) s = .next { s with rsp := s.rsp ++ [BitVec.ofNat 32 (s.cause.toNat * 2 + s.f.toNat)] }

/-- 60_exceptions R171 and R173 with 10_state R34: with no room in the response channel, whatever its depth, a `RD`
waits and sends nothing, and a waiting one goes on waiting; when the host has taken a word, the next step sends the value
the `RD` would have sent; and a step of a machine whose waiting `RD` has room sends the register and ends the wait. That
the waiting `RD` is held in `progress` and reads its register when it sends is the model's inference (log 10), and that a
wait changes nothing is its choice (log 1). -/
def Obligations.RdWaitsForRoom : Prop :=
  (∀ (d : Nat) (r : Reg) (s : State), s.progress = none → s.rsp.length = d + 1 →
    respond (some (d + 1)) r s = { s with progress := some (.read r) } ∧
    respond (some (d + 1)) r { respond (some (d + 1)) r s with progress := none } = respond (some (d + 1)) r s ∧
    respond (some (d + 1)) r { takeResponse (respond (some (d + 1)) r s) with progress := none } =
      { s with rsp := s.rsp.tail ++ [s.readReg r] } ∧
    (hasRoom Config.rspDepth s.rsp.tail = true →
      step (takeResponse (respond (some (d + 1)) r s)) = .next { s with rsp := s.rsp.tail ++ [s.readReg r] })) ∧
  (∀ (r : Reg) (s : State), s.progress = some (.read r) → hasRoom Config.rspDepth s.rsp = true →
    step s = .next { s with progress := none, rsp := s.rsp ++ [s.readReg r] })

/-- What each command leaves unchanged whenever it answers a next state (R101, R102, R103, R120): `INIT` and `WR` touch
no channel and no command in progress, `INIT` no flag, `WR` no other register; `RD` no register, no flag, no input
channel; UPDATE no flag, no command word, no response. -/
def Obligations.CommandFrames : Prop :=
  ∀ (s t : State) (r : Reg) (v n : Word),
    (exec .init s = .next t →
      t.f = s.f ∧ t.cause = s.cause ∧ t.progress = s.progress ∧ t.cmd = s.cmd ∧ t.data = s.data ∧ t.rsp = s.rsp) ∧
    (exec (.wr r v) s = .next t →
      t.progress = s.progress ∧ t.cmd = s.cmd ∧ t.data = s.data ∧ t.rsp = s.rsp ∧
      (r ≠ .s1 → t.s1 = s.s1) ∧ (r ≠ .s2 → t.s2 = s.s2) ∧
      (r.writable = true → t.f = s.f ∧ t.cause = s.cause)) ∧
    (exec (.rd r) s = .next t →
      t.s1 = s.s1 ∧ t.s2 = s.s2 ∧ t.f = s.f ∧ t.cause = s.cause ∧ t.cmd = s.cmd ∧ t.data = s.data ∧
      (hasRoom Config.rspDepth s.rsp = true → t.progress = s.progress)) ∧
    (exec (.update n) s = .next t →
      t.f = s.f ∧ t.cause = s.cause ∧ t.cmd = s.cmd ∧ t.rsp = s.rsp ∧
      (beatsNeeded n.toNat ≤ s.data.length → t.progress = s.progress) ∧
      (s.data.length < beatsNeeded n.toNat → t.s1 = s.s1 ∧ t.s2 = s.s2))

/-! ## The steps of UPDATE -/

/-- 41_update R121 with 00_scope R9: `add32` is the sum modulo 2^32, and `red` the remainder by 65521. -/
def Obligations.ArithmeticIsModular : Prop :=
  (∀ p q : Word, (add32 p q).toNat = (p.toNat + q.toNat) % 2 ^ 32) ∧
  (∀ p : Word, (red p).toNat = p.toNat % 65521) ∧
  red 0#32 = 0#32 ∧ red 65520#32 = 65520#32 ∧ red 65521#32 = 0#32 ∧ red 0xFFFFFFFF#32 = 224#32

/-- 41_update R122: the reduced byte step leaves a pair below 65521 whatever went in, and from a pair below 65521 it is
the exact recurrence: neither addition wraps. -/
def Obligations.StepRIsTheExactRecurrence : Prop :=
  ∀ (a b : Word) (x : Byte),
    (stepR (a, b) x).1 = red (add32 a (x.setWidth 32)) ∧
    (stepR (a, b) x).2 = red (add32 b (stepR (a, b) x).1) ∧
    (stepR (a, b) x).1.toNat < 65521 ∧ (stepR (a, b) x).2.toNat < 65521 ∧
    (a.toNat < 65521 → b.toNat < 65521 →
      a.toNat + x.toNat ≤ 65775 ∧ b.toNat + (stepR (a, b) x).1.toNat ≤ 131040 ∧
      (stepR (a, b) x).1.toNat = (a.toNat + x.toNat) % 65521 ∧
      (stepR (a, b) x).2.toNat = (b.toNat + (a.toNat + x.toNat) % 65521) % 65521)

/-- 41_update R124: `Reduce` brings both halves below 65521, keeps a pair that is below already, and is idempotent. -/
def Obligations.ReduceIsIdempotent : Prop :=
  ∀ q : Pair,
    reduce q = (red q.1, red q.2) ∧ (reduce q).1.toNat < 65521 ∧ (reduce q).2.toNat < 65521 ∧
    (q.1.toNat < 65521 → q.2.toNat < 65521 → reduce q = q) ∧ reduce (reduce q) = reduce q

/-- 41_update R125: a group is `StepU` on lanes 0 to 15 in lane order; its closed form, bit for bit, wrapping included;
the weight of lane `i` in `b'` is `16 - i`. -/
def Obligations.GroupHasTheClosedForm : Prop :=
  (∀ (a b : Word) (v : Beat),
    group (a, b) v = ((List.range 16).map (lane v)).foldl stepU (a, b) ∧
    (group (a, b) v).1.toNat = (a.toNat + byteSum (lanes v 16)) % 2 ^ 32 ∧
    (group (a, b) v).2.toNat = (b.toNat + 16 * a.toNat + weightedSum (lanes v 16)) % 2 ^ 32) ∧
  group (1#32, 0#32) 0x100F0E0D0C0B0A090807060504030201#128 = (137#32, 832#32)

/-- 41_update R136: over at most 5552 bytes from a valid pair no unreduced addition wraps: the 32-bit sums are the
integer sums and stay within the stated bounds; both bounds are reached at 5552, and at 5553 the second sum can pass
2^32, so 5552 is the largest safe block length. -/
def Obligations.BlockSizeIsTheLargestSafeLength : Prop :=
  (∀ (q : Pair) (buf : List Byte), inRange q → buf.length ≤ 5552 →
    let r := buf.foldl stepU q
    let e := buf.foldl stepExact (q.1.toNat, q.2.toNat)
    r.1.toNat = e.1 ∧ r.2.toNat = e.2 ∧ e.1 ≤ 1481280 ∧ e.2 ≤ 4294690200) ∧
  (List.replicate 5552 0xFF#8).foldl stepExact (65520, 65520) = (1481280, 4294690200) ∧
  2 ^ 32 ≤ ((List.replicate 5553 0xFF#8).foldl stepExact (65520, 65520)).2

/-! ## UPDATE -/

/-- 41_update R128: a short update takes one beat and applies `StepR` to its lanes 0 to `n - 1`, from any state. From an
out-of-range state the value rests on `OOR_MODEL = wrap32`, the model's choice of the spec's default (log 3). -/
def Obligations.ShortUpdateReducesEveryByte : Prop :=
  ∀ (n : Word) (s : State) (v : Beat) (rest : List Beat),
    1 ≤ n.toNat → n.toNat ≤ 15 → s.data = v :: rest →
    exec (.update n) s = .next { s with
      s1 := ((lanes v n.toNat).foldl stepR (s.s1, s.s2)).1
      s2 := ((lanes v n.toNat).foldl stepR (s.s1, s.s2)).2
      data := rest }

/-- 41_update R126 to R133: whenever the beats are there, UPDATE answers the state that the pseudocode of the three
regimes gives, from every state, valid or not, and changes nothing but `S1`, `S2` and the data channel. From an
out-of-range state the value rests on `OOR_MODEL = wrap32`, the model's choice of the spec's default (log 3). -/
def Obligations.UpdateFollowsTheThreeRegimes : Prop :=
  ∀ (n : Word) (s : State), beatsNeeded n.toNat ≤ s.data.length →
    ∃ r, updateRegimes n.toNat (s.s1, s.s2) s.data = some (r, s.data.drop (beatsNeeded n.toNat)) ∧
      exec (.update n) s = .next { s with
        s1 := r.1
        s2 := r.2
        data := s.data.drop (beatsNeeded n.toNat) }

/-- 20_memory R64 with 41_update R133: an UPDATE that lacks beats consumes those that are there and waits; `S1`, `S2`
and everything else is unchanged. That the beats at hand are taken in one step is the model's choice (log 2). -/
def Obligations.UpdateWaitsForMissingBeats : Prop :=
  ∀ (n : Word) (s : State), s.data.length < beatsNeeded n.toNat →
    ∃ u : UpdateScratch, exec (.update n) s = .next { s with data := [], progress := some (.update u) } ∧
      u.n = n ∧ u.p.toNat = 16 * s.data.length ∧ u.wf

/-- 20_memory R61 with 41_update R145: how the beats of an UPDATE are spread over time does not matter. An UPDATE that
had to wait, given more beats, goes on to the state it would have reached had they been there from the start. R61 and
R145 speak of the result; that the waiting machine's data channel is empty, and that the two also agree while `more` is
still too few, is the model's inference that an UPDATE takes all the beats at hand at once (log 2). -/
def Obligations.LateBeatsGiveTheSameState : Prop :=
  ∀ (n : Word) (s t : State) (more : List Beat),
    s.progress = none → s.data.length < beatsNeeded n.toNat → exec (.update n) s = .next t →
    step { t with data := more } = exec (.update n) { s with data := s.data ++ more }

/-- 41_update R135: after every UPDATE, from any state, valid or not, and any buffer, `S1` and `S2` are below 65521;
also when it had to wait for beats. -/
def Obligations.UpdateLeavesAValidState : Prop :=
  (∀ (n : Word) (s : State), beatsNeeded n.toNat ≤ s.data.length →
    ∃ t, exec (.update n) s = .next t ∧ t.s1.toNat < 65521 ∧ t.s2.toNat < 65521) ∧
  (∀ (s t : State) (u : UpdateScratch), s.progress = some (.update u) → u.wf → step s = .next t →
    t.progress = none → t.s1.toNat < 65521 ∧ t.s2.toNat < 65521)

/-- 41_update R137: from every valid state and for every length `n >= 1`, UPDATE leaves exactly the result of the
reference recurrence on its buffer, whichever regime `n` selects; for `n = 0` the two agree only from `(1, 0)`. A tail
done with `StepR` would give the same result. -/
def Obligations.UpdateEqualsTheReferenceRecurrence : Prop :=
  (∀ (n : Word) (s : State), s.valid → 1 ≤ n.toNat → beatsNeeded n.toNat ≤ s.data.length →
    exec (.update n) s = .next { s with
      s1 := (ref (s.s1, s.s2) (bufferOf n.toNat s.data)).1
      s2 := (ref (s.s1, s.s2) (bufferOf n.toNat s.data)).2
      data := s.data.drop (beatsNeeded n.toNat) }) ∧
  (∀ s : State, exec (.update 0#32) s = .next { s with
      s1 := (ref (s.s1, s.s2) []).1
      s2 := (ref (s.s1, s.s2) []).2 } ↔ (s.s1, s.s2) = (1#32, 0#32)) ∧
  (∀ (q : Pair) (groups tail : List Byte), inRange q → groups.length + tail.length ≤ 5552 →
    reduce (tail.foldl stepR (groups.foldl stepU q)) = reduce (tail.foldl stepU (groups.foldl stepU q)))

/-- 41_update R138: from a valid state, a buffer cut into non-empty pieces and sent as one UPDATE for each leaves the
reference result of the whole buffer, and the same state as the single UPDATE of the whole buffer where one UPDATE can
carry it. -/
def Obligations.ChunkingDoesNotMatter : Prop :=
  ∀ (chunks : List (List Byte)) (s : State),
    s.valid → s.f = false → s.progress = none → chunks ≠ [] →
    (∀ c ∈ chunks, c ≠ [] ∧ c.length < 2 ^ 32) →
    let cut : State := { s with
      cmd := chunks.map (fun c => encode (.update (BitVec.ofNat 32 c.length)))
      data := chunks.flatMap packBeats }
    let whole : State := { s with
      cmd := [encode (.update (BitVec.ofNat 32 chunks.flatten.length))]
      data := packBeats chunks.flatten }
    let result : State := { s with
      s1 := (ref (s.s1, s.s2) chunks.flatten).1
      s2 := (ref (s.s1, s.s2) chunks.flatten).2
      cmd := []
      data := [] }
    runCore chunks.length cut = .next result ∧
    (chunks.flatten.length < 2 ^ 32 → runCore 1 whole = .next result)

/-- 41_update R127 and R139: `UPDATE #0` leaves `(1, 0)` from every state, consumes no beat and changes nothing else, and
`INIT` has the same effect; so an empty update in the middle of a stream discards everything before it, from any state, valid or
not: what is left is the result of the chunks after the last empty update, from the identity state. -/
def Obligations.EmptyUpdateDiscardsTheStream : Prop :=
  (∀ s : State, exec (.update 0#32) s = exec .init s ∧ exec (.update 0#32) s = .next { s with s1 := 1#32, s2 := 0#32 }) ∧
  ∀ (before after : List (List Byte)) (s : State),
    s.f = false → s.progress = none → (∀ c ∈ before, c.length < 2 ^ 32) →
    (∀ c ∈ after, c ≠ [] ∧ c.length < 2 ^ 32) →
    let chunks := before ++ [] :: after
    runCore chunks.length { s with
      cmd := chunks.map (fun c => encode (.update (BitVec.ofNat 32 c.length)))
      data := chunks.flatMap packBeats } =
    .next { s with
      s1 := (ref (1#32, 0#32) after.flatten).1
      s2 := (ref (1#32, 0#32) after.flatten).2
      cmd := []
      data := [] }

/-- 41_update R140: the closed form of a non-empty UPDATE from a valid state, over the integers. -/
def Obligations.UpdateHasTheClosedForm : Prop :=
  ∀ (n : Word) (s : State), s.valid → 1 ≤ n.toNat → beatsNeeded n.toNat ≤ s.data.length →
    ∃ t, exec (.update n) s = .next t ∧
      t.s1.toNat = (s.s1.toNat + byteSum (bufferOf n.toNat s.data)) % 65521 ∧
      t.s2.toNat =
        (s.s2.toNat + n.toNat * s.s1.toNat + weightedSum (bufferOf n.toNat s.data)) % 65521

/-- 20_memory R55 with 41_update R145: two states that agree on `S1`, `S2` and the bytes of the buffer get the same
`S1` and `S2` from UPDATE, whatever else they hold: the unused lanes of a partial beat, later beats, `SR` and the other
channels have no influence; valid or not. -/
def Obligations.UpdateDependsOnTheBufferOnly : Prop :=
  ∀ (n : Word) (s t : State), s.s1 = t.s1 → s.s2 = t.s2 →
    beatsNeeded n.toNat ≤ s.data.length → beatsNeeded n.toNat ≤ t.data.length →
    bufferOf n.toNat s.data = bufferOf n.toNat t.data →
    ∃ s' t', exec (.update n) s = .next s' ∧ exec (.update n) t = .next t' ∧ s'.s1 = t'.s1 ∧ s'.s2 = t'.s2

/-- 41_update R141 with 00_scope R6: what UPDATE leaves is allowed under both readings of `OOR_MODEL`. That the model
takes the value of `wrap32` from an out-of-range state is the spec's default (log 3); under `anyInRange` only the range
is claimed there. -/
def Obligations.UpdateResultIsAllowedUnderBothReadings : Prop :=
  ∀ (m : OorModel) (n : Word) (s : State), beatsNeeded n.toNat ≤ s.data.length →
    ∃ t, exec (.update n) s = .next t ∧ resultAllowed m n.toNat (s.s1, s.s2) s.data (t.s1, t.s2)

/-- 41_update R141 (b): from an out-of-range state, if no addition of the UPDATE wraps, the result is the one from the
reduced state `(red(S1), red(S2))`. Only the additions before the first reduction of each sum can wrap: the first byte's
in the short regime, those of the first block (or of the whole buffer, where it is shorter) in the long one. It rests on
the model's `wrap32` reading (log 3). -/
def Obligations.OutOfRangeStartWithoutWrapIsHarmless : Prop :=
  ∀ (n : Word) (s : State), 1 ≤ n.toNat → beatsNeeded n.toNat ≤ s.data.length →
    let first := (bufferOf n.toNat s.data).take (if n.toNat < 16 then 1 else 5552)
    s.s1.toNat + byteSum first < 2 ^ 32 →
    (n.toNat < 16 → s.s2.toNat + (s.s1.toNat + byteSum first) % 65521 < 2 ^ 32) →
    (16 ≤ n.toNat → s.s2.toNat + first.length * s.s1.toNat + weightedSum first < 2 ^ 32) →
    exec (.update n) s = exec (.update n) { s with s1 := red s.s1, s2 := red s.s2 }

/-! ## Invariants of the machine -/

/-- The invariant holds after reset, and so do the bounds on the sums (10_state R23, R25, R28). -/
def Obligations.ResetMeetsTheInvariants : Prop :=
  State.reset.inv ∧ State.reset.sumsBounded

/-- 10_state R25 and R30, 60_exceptions R166: every step keeps the invariant. -/
def Obligations.EveryStepKeepsTheInvariant : Prop :=
  ∀ s t : State, s.inv → step s = .next t → t.inv

/-- The same for every run in which core steps and host actions mix in any order. -/
def Obligations.EveryRunKeepsTheInvariant : Prop :=
  ∀ (es : List Event) (s t : State), s.inv → runEvents es s = .next t → t.inv

/-- 10_state R23 with 41_update R136: from a state whose registers are valid, a step leaves them valid, and the sums of
a waiting UPDATE within the bounds of R136, unless it takes a `WR` of 65521 or more. -/
def Obligations.OnlyAWriteBreaksTheRange : Prop :=
  ∀ s t : State, s.inv → s.sumsBounded → ¬ s.writesOutOfRange → step s = .next t → t.sumsBounded

/-! ## Programs -/

/-- 70_reset_and_hazards R204 with 20_memory R60 and R61: a finite sequence of legal commands whose beats are supplied
and whose responses find room runs to its end, takes exactly its beats, sends exactly one response
for each `RD`, and leaves the words behind it alone. That each command is one step is the model's inference (log 2). -/
def Obligations.EveryProgramRunsToItsEnd : Prop :=
  ∀ (is : List Instr) (s : State) (behind : List CmdWord),
    (∀ i ∈ is, i.wf = true) → s.f = false → s.progress = none → s.cmd = is.map encode ++ behind →
    beatsOf is ≤ s.data.length → hasRoomFor Config.rspDepth s.rsp (readsOf is) = true →
    ∃ t out, runCore is.length s = .next t ∧ t.cmd = behind ∧ t.progress = none ∧ t.f = false ∧
      t.cause = s.cause ∧ t.data = s.data.drop (beatsOf is) ∧ t.rsp = s.rsp ++ out ∧ out.length = readsOf is

/-- 40_state_commands R104: the pseudo-command `CALL` is the source's by-value contract: with a valid pair and a
non-empty buffer it sends back the reference result, `s1'` first, and with an empty buffer `(1, 0)`. For buffers
below 2^32 bytes, whose length fits `LEN`; that each command is one step is the model's inference (log 2). -/
def Obligations.CallIsTheByValueContract : Prop :=
  ∀ (v1 v2 : Word) (bytes : List Byte) (s : State),
    v1.toNat < 65521 → v2.toNat < 65521 → bytes.length < 2 ^ 32 → s.f = false → s.progress = none →
    hasRoomFor Config.rspDepth s.rsp 2 = true →
    let r := if bytes = [] then (1#32, 0#32) else ref (v1, v2) bytes
    runCore 5 { s with
      cmd := (Pseudo.call v1 v2 bytes).words
      data := (Pseudo.call v1 v2 bytes).beats } =
    .next { s with
      s1 := r.1
      s2 := r.2
      cmd := []
      data := []
      rsp := s.rsp ++ [r.1, r.2] }

/-! ## The open parameter `OOR_MODEL` -/

/-- 00_scope R6 and 41_update R141 with 93 U1: for either value of `OOR_MODEL`, an UPDATE whose beats are there leaves a
pair that this reading allows, below 65521 for a start of any kind, consumes its beats and changes nothing else; from a
valid state, and for the empty update, the value makes no difference. -/
def Obligations.UpdateFollowsItsOorModel : Prop :=
  ∀ (m : OorModel) (n : Word) (s : State), beatsNeeded n.toNat ≤ s.data.length →
    (∃ r, updateUnder m n s = .next { s with
        s1 := r.1
        s2 := r.2
        data := s.data.drop (beatsNeeded n.toNat) } ∧
      resultAllowed m n.toNat (s.s1, s.s2) s.data r ∧ inRange r) ∧
    (s.valid ∨ n = 0#32 → updateUnder m n s = exec (.update n) s)

/-- 41_update R145 and R133, for either value of `OOR_MODEL`: an UPDATE that lacks beats waits, and run on with more beats
it reaches the state it would have reached had they been there from the start, the same free value included. That the
beats at hand are taken at once (log 2), and of what the free value of `any_in_range` is a function (log 3), is the
model's. -/
def Obligations.WaitingUpdateKeepsItsOorModel : Prop :=
  ∀ (m : OorModel) (n : Word) (s : State) (more : List Beat), s.data.length < beatsNeeded n.toNat →
    ∃ u : UpdateScratch, updateUnder m n s = .next { s with data := [], progress := some (.update u) } ∧
      updateUnder m n { s with data := s.data ++ more } = .next (runUpdate m u { s with data := more })

/-- 20_memory R55 with 41_update R145, for either value of `OOR_MODEL`: also where the value of an UPDATE is open it depends
on `S1`, `S2` and the bytes of the buffer only. That the free value of `any_in_range` is a function of these is read from
R145 (log 3). -/
def Obligations.OpenUpdateDependsOnTheBufferOnly : Prop :=
  ∀ (m : OorModel) (n : Word) (s t : State), s.s1 = t.s1 → s.s2 = t.s2 →
    beatsNeeded n.toNat ≤ s.data.length → beatsNeeded n.toNat ≤ t.data.length →
    bufferOf n.toNat s.data = bufferOf n.toNat t.data →
    ∃ s' t', updateUnder m n s = .next s' ∧ updateUnder m n t = .next t' ∧ s'.s1 = t'.s1 ∧ s'.s2 = t'.s2
end

