-- ==== Sys2Proof/Laws/Decode.lean ====
section
/-! SUPPORT. The fields of a command word as numbers, and of an encoded one. -/

namespace Sys2Proof

theorem opcField_toNat (w : CmdWord) : (opcField w).toNat = w.toNat / 2 ^ 56 := by
  have := w.isLt
  simp only [opcField, BitVec.extractLsb'_toNat, Nat.shiftRight_eq_div_pow]
  omega

theorem regField_toNat (w : CmdWord) : (regField w).toNat = w.toNat / 2 ^ 48 % 2 ^ 8 := by
  simp only [regField, BitVec.extractLsb'_toNat, Nat.shiftRight_eq_div_pow]

theorem rsvField_toNat (w : CmdWord) : (rsvField w).toNat = w.toNat / 2 ^ 32 % 2 ^ 16 := by
  simp only [rsvField, BitVec.extractLsb'_toNat, Nat.shiftRight_eq_div_pow]

theorem immField_toNat (w : CmdWord) : (immField w).toNat = w.toNat % 2 ^ 32 := by
  simp only [immField, BitVec.extractLsb'_toNat, Nat.shiftRight_eq_div_pow]
  omega

theorem cmdWord_toNat (o r : BitVec 8) (v : Word) :
    (cmdWord o r v).toNat = o.toNat * 2 ^ 56 + r.toNat * 2 ^ 48 + v.toNat := by
  unfold cmdWord
  simp only [BitVec.toNat_append, BitVec.toNat_ofNat]
  rw [← Nat.shiftLeft_add_eq_or_of_lt v.isLt, ← Nat.shiftLeft_add_eq_or_of_lt (show 0 % 2 ^ 16 < 2 ^ 16 by decide),
    ← Nat.shiftLeft_add_eq_or_of_lt r.isLt]
  simp only [Nat.shiftLeft_eq]
  omega

@[simp] theorem opcField_cmdWord (o r : BitVec 8) (v : Word) : opcField (cmdWord o r v) = o := by
  have := v.isLt
  have := r.isLt
  apply BitVec.eq_of_toNat_eq
  rw [opcField_toNat, cmdWord_toNat]
  omega

@[simp] theorem regField_cmdWord (o r : BitVec 8) (v : Word) : regField (cmdWord o r v) = r := by
  have := v.isLt
  have := r.isLt
  apply BitVec.eq_of_toNat_eq
  rw [regField_toNat, cmdWord_toNat]
  omega

@[simp] theorem rsvField_cmdWord (o r : BitVec 8) (v : Word) : rsvField (cmdWord o r v) = 0#16 := by
  have := v.isLt
  apply BitVec.eq_of_toNat_eq
  rw [rsvField_toNat, cmdWord_toNat, BitVec.toNat_ofNat]
  omega

@[simp] theorem immField_cmdWord (o r : BitVec 8) (v : Word) : immField (cmdWord o r v) = v := by
  have := v.isLt
  apply BitVec.eq_of_toNat_eq
  rw [immField_toNat, cmdWord_toNat]
  omega

/-- A word whose `RSV` is zero is made of its other three fields. -/
theorem cmdWord_fields {w : CmdWord} (h : rsvField w = 0#16) :
    cmdWord (opcField w) (regField w) (immField w) = w := by
  have := w.isLt
  have h' := congrArg BitVec.toNat h
  rw [rsvField_toNat, BitVec.toNat_ofNat] at h'
  apply BitVec.eq_of_toNat_eq
  rw [cmdWord_toNat, opcField_toNat, regField_toNat, immField_toNat]
  omega

theorem regNamed_number (r : Reg) : regNamed r.number = r := by cases r <;> decide

theorem number_regNamed {n : BitVec 8} (h : n.toNat ≤ 3) : (regNamed n).number = n := by
  revert n
  decide

/-- A mask selects a word field by field. -/
theorem and_eq_iff_fields (w m a : CmdWord) :
    w &&& m = a ↔
      opcField w &&& opcField m = opcField a ∧ regField w &&& regField m = regField a ∧
      rsvField w &&& rsvField m = rsvField a ∧ immField w &&& immField m = immField a := by
  unfold opcField regField rsvField immField
  constructor
  · rintro rfl
    simp [BitVec.extractLsb'_and]
  · rintro ⟨ho, hr, hs, hi⟩
    apply BitVec.eq_of_getLsbD_eq
    intro i hi64
    by_cases h32 : i < 32
    · simpa [h32] using congrArg (·.getLsbD i) hi
    by_cases h48 : i < 48
    · simpa [show i - 32 < 16 by omega, show 32 + (i - 32) = i by omega] using congrArg (·.getLsbD (i - 32)) hs
    by_cases h56 : i < 56
    · simpa [show i - 48 < 8 by omega, show 48 + (i - 48) = i by omega] using congrArg (·.getLsbD (i - 48)) hr
    · simpa [show i - 56 < 8 by omega, show 56 + (i - 56) = i by omega] using congrArg (·.getLsbD (i - 56)) ho

end Sys2Proof
end

