-- ==== Sys2Proof/Laws/Ops.lean ====
section
/-! SUPPORT. What each shared operation can do, said once: the arithmetic, the byte steps and their folds over a buffer,
and the response channel. -/

namespace Sys2Proof.Machine

/-! ## Arithmetic -/

@[simp] theorem add32_toNat (p q : Word) : (add32 p q).toNat = (p.toNat + q.toNat) % 2 ^ 32 := BitVec.toNat_add p q

@[simp] theorem red_toNat (p : Word) : (red p).toNat = p.toNat % 65521 := by
  have h := Nat.mod_lt p.toNat (show 65521 > 0 by decide)
  simp only [red, Config.modulus, BitVec.toNat_ofNat]
  omega

theorem red_lt (p : Word) : (red p).toNat < 65521 := by
  rw [red_toNat]; exact Nat.mod_lt _ (by decide)

theorem red_of_lt {p : Word} (h : p.toNat < 65521) : red p = p := by
  apply BitVec.eq_of_toNat_eq
  rw [red_toNat, Nat.mod_eq_of_lt h]

@[simp] theorem byte_setWidth_toNat (x : Byte) : (x.setWidth 32).toNat = x.toNat := by
  have := x.isLt
  simp only [BitVec.toNat_setWidth]
  omega

theorem reduce_inRange (q : Pair) : inRange (reduce q) := ⟨red_lt q.1, red_lt q.2⟩

theorem stepR_inRange (q : Pair) (x : Byte) : inRange (stepR q x) := ⟨red_lt _, red_lt _⟩

/-! ## Sums of a buffer -/

theorem byteSum_append (xs ys : List Byte) : byteSum (xs ++ ys) = byteSum xs + byteSum ys := by
  induction xs with
  | nil => simp [byteSum]
  | cons x xs ih => simp [byteSum, ih]; omega

theorem byteSum_le (xs : List Byte) : byteSum xs ≤ 255 * xs.length := by
  induction xs with
  | nil => simp [byteSum]
  | cons x xs ih =>
    have := x.isLt
    simp only [byteSum, List.length_cons]
    omega

theorem weightedSum_le (xs : List Byte) : 2 * weightedSum xs ≤ 255 * (xs.length * (xs.length + 1)) := by
  induction xs with
  | nil => simp [weightedSum]
  | cons x xs ih =>
    have hx : x.toNat ≤ 255 := by have := x.isLt; omega
    have := Nat.mul_le_mul_left (xs.length + 1) hx
    simp only [weightedSum, List.length_cons]
    nlinarith

/-! ## Folds of the byte steps -/

/-- The unreduced steps over a buffer, from any pair: the integer sums modulo 2^32. -/
theorem foldl_stepU_toNat (xs : List Byte) (q : Pair) :
    (xs.foldl stepU q).1.toNat = (q.1.toNat + byteSum xs) % 2 ^ 32 ∧
    (xs.foldl stepU q).2.toNat = (q.2.toNat + xs.length * q.1.toNat + weightedSum xs) % 2 ^ 32 := by
  induction xs generalizing q with
  | nil =>
    have h1 := q.1.isLt
    have h2 := q.2.isLt
    simp only [List.foldl_nil, byteSum, weightedSum, List.length_nil, Nat.zero_mul, Nat.add_zero]
    omega
  | cons x xs ih =>
    obtain ⟨h1, h2⟩ := ih (stepU q x)
    have e1 : (stepU q x).1.toNat = (q.1.toNat + x.toNat) % 2 ^ 32 := by simp [stepU]
    have e2 : (stepU q x).2.toNat = (q.2.toNat + (q.1.toNat + x.toNat)) % 2 ^ 32 := by simp [stepU]
    rw [List.foldl_cons]
    refine ⟨?_, ?_⟩
    · rw [h1, e1, Nat.mod_add_mod, byteSum, Nat.add_assoc]
    · rw [h2, e1, e2, weightedSum, List.length_cons]
      apply Nat.ModEq.trans (b := q.2.toNat + (q.1.toNat + x.toNat) + xs.length * (q.1.toNat + x.toNat) + weightedSum xs)
      · exact (((Nat.mod_modEq _ _).add ((Nat.mod_modEq _ _).mul_left _)).add_right _)
      · apply congrArg (· % 2 ^ 32)
        ring

/-- The reduced steps over a buffer, from a valid pair: the integer sums modulo 65521. -/
theorem ref_toNat (xs : List Byte) (q : Pair) (h : inRange q) :
    (ref q xs).1.toNat = (q.1.toNat + byteSum xs) % 65521 ∧
    (ref q xs).2.toNat = (q.2.toNat + xs.length * q.1.toNat + weightedSum xs) % 65521 := by
  induction xs generalizing q with
  | nil =>
    obtain ⟨h1, h2⟩ := h
    simp only [Config.modulus] at h1 h2
    simp only [ref, List.foldl_nil, byteSum, weightedSum, List.length_nil, Nat.zero_mul, Nat.add_zero]
    omega
  | cons x xs ih =>
    obtain ⟨h1, h2⟩ := ih (stepR q x) (stepR_inRange q x)
    obtain ⟨ha, hb⟩ := h
    have hx := x.isLt
    simp only [Config.modulus] at ha hb
    have e1 : (stepR q x).1.toNat = (q.1.toNat + x.toNat) % 65521 := by simp [stepR]; omega
    have e2 : (stepR q x).2.toNat = (q.2.toNat + (q.1.toNat + x.toNat)) % 65521 := by simp [stepR]; omega
    have hc : ref q (x :: xs) = ref (stepR q x) xs := rfl
    rw [hc]
    refine ⟨?_, ?_⟩
    · rw [h1, e1, Nat.mod_add_mod, byteSum, Nat.add_assoc]
    · rw [h2, e1, e2, weightedSum, List.length_cons]
      apply Nat.ModEq.trans (b := q.2.toNat + (q.1.toNat + x.toNat) + xs.length * (q.1.toNat + x.toNat) + weightedSum xs)
      · exact (((Nat.mod_modEq _ _).add ((Nat.mod_modEq _ _).mul_left _)).add_right _)
      · apply congrArg (· % 65521)
        ring

/-- Over at most 5552 bytes from a valid pair the unreduced sums do not reach 2^32 (41_update R136), so one reduction at
the end gives what a reduction after every byte gives. -/
theorem reduce_foldl_stepU (xs : List Byte) (q : Pair) (h : inRange q) (hl : xs.length ≤ 5552) :
    reduce (xs.foldl stepU q) = ref q xs := by
  obtain ⟨u1, u2⟩ := foldl_stepU_toNat xs q
  obtain ⟨r1, r2⟩ := ref_toNat xs q h
  obtain ⟨ha, hb⟩ := h
  simp only [Config.modulus] at ha hb
  have s1 := byteSum_le xs
  have s2 := weightedSum_le xs
  have m1 : xs.length * q.1.toNat ≤ 5552 * 65520 := Nat.mul_le_mul hl (by omega)
  have m2 : xs.length * (xs.length + 1) ≤ 5552 * 5553 := Nat.mul_le_mul hl (by omega)
  have b1 : q.1.toNat + byteSum xs < 2 ^ 32 := by omega
  have b2 : q.2.toNat + xs.length * q.1.toNat + weightedSum xs < 2 ^ 32 := by omega
  apply Prod.ext
  · apply BitVec.eq_of_toNat_eq
    rw [reduce, red_toNat, u1, r1, Nat.mod_eq_of_lt b1]
  · apply BitVec.eq_of_toNat_eq
    rw [reduce, red_toNat, u2, r2, Nat.mod_eq_of_lt b2]

theorem ref_append (q : Pair) (xs ys : List Byte) : ref q (xs ++ ys) = ref (ref q xs) ys := by
  simp [ref, List.foldl_append]

/-! ## Lanes and beats -/

@[simp] theorem lanes_length (v : Beat) (k : Nat) : (lanes v k).length = k := by simp [lanes]

theorem lanes_take (v : Beat) {j k : Nat} (h : j ≤ k) : (lanes v k).take j = lanes v j := by
  simp [lanes, ← List.map_take, List.take_range, Nat.min_eq_left h]

theorem flatMap_lanes_length (d : List Beat) : (d.flatMap (fun v => lanes v 16)).length = 16 * d.length := by
  induction d with
  | nil => rfl
  | cons v d ih => simp only [List.flatMap_cons, List.length_append, lanes_length, ih, List.length_cons]; omega

theorem flatMap_lanes_drop (d : List Beat) (k : Nat) :
    (d.drop k).flatMap (fun v => lanes v 16) = (d.flatMap (fun v => lanes v 16)).drop (16 * k) := by
  induction d generalizing k with
  | nil => simp
  | cons v d ih =>
    cases k with
    | zero => simp
    | succ k =>
      rw [List.drop_succ_cons, ih, List.flatMap_cons, show 16 * (k + 1) = (lanes v 16).length + 16 * k by simp; omega,
        List.drop_length_add_append]

theorem bufferOf_length {n : Nat} {d : List Beat} (h : n ≤ 16 * d.length) : (bufferOf n d).length = n := by
  rw [bufferOf, List.length_take, flatMap_lanes_length]
  omega

/-- A buffer is the bytes of its first `k` beats, then the bytes of the beats after them. -/
theorem bufferOf_add (k x : Nat) (d : List Beat) :
    bufferOf (16 * k + x) d = bufferOf (16 * k) d ++ bufferOf x (d.drop k) := by
  simp only [bufferOf, List.take_add, flatMap_lanes_drop]

theorem bufferOf_short {n : Nat} (h : n ≤ 16) (v : Beat) (d : List Beat) : bufferOf n (v :: d) = lanes v n := by
  rw [bufferOf, List.flatMap_cons, List.take_append_of_le_length (by simpa using h), lanes_take v h]

/-! ## The response channel -/

@[simp] theorem hasRoom_none {α : Type} (q : List α) : hasRoom none q = true := rfl

/-- `respond` appends the register's value where there is room, and otherwise leaves the `RD` in progress. -/
theorem respond_cases (depth : Option Nat) (r : Reg) (s : State) :
    (hasRoom depth s.rsp = true ∧ respond depth r s = { s with rsp := s.rsp ++ [s.readReg r] }) ∨
    (hasRoom depth s.rsp = false ∧ respond depth r s = { s with progress := some (.read r) }) := by
  cases h : hasRoom depth s.rsp
  · exact .inr ⟨rfl, by simp [respond, h]⟩
  · exact .inl ⟨rfl, by simp [respond, h]⟩

theorem causeCode_ne_zero (c : Cause) : causeCode c ≠ 0#2 := by cases c <;> decide

end Sys2Proof.Machine
end

