-- ==== Sys2Proof/Laws/PerInstr.lean ====
section
/-! SUPPORT. The families of per-instruction lemmas LAWS.json names. -/

namespace Sys2Proof.Laws.EncodedFields

/-- The word of a command has an `OPC` from 1 to 4 and a zero `RSV` (spec 30_encoding R71, R72): neither the all-zeros
nor the all-ones word encodes a command. -/
def Statement (i : Instr) : Prop :=
  1 ≤ (opcField (encode i)).toNat ∧ (opcField (encode i)).toNat ≤ 4 ∧ rsvField (encode i) = 0#16

theorem init : Statement .init := by simp [Statement, encode]

theorem wr (r : Reg) (v : Word) : Statement (.wr r v) := by simp [Statement, encode]

theorem rd (r : Reg) : Statement (.rd r) := by simp [Statement, encode]

theorem update (len : Word) : Statement (.update len) := by simp [Statement, encode]

end Sys2Proof.Laws.EncodedFields
end

