-- ==== Sys2Proof/Laws/State.lean ====
section
/-! SUPPORT. The fields of the state after each shared update of it: one lemma per field and update, true by rfl, so that
no later proof unfolds a record update. -/

namespace Sys2Proof.Machine

@[simp] theorem writeReg_s1_s1 (s : State) (v : Word) : (s.writeReg .s1 v).s1 = v := rfl
@[simp] theorem writeReg_s1_s2 (s : State) (v : Word) : (s.writeReg .s1 v).s2 = s.s2 := rfl
@[simp] theorem writeReg_s2_s1 (s : State) (v : Word) : (s.writeReg .s2 v).s1 = s.s1 := rfl
@[simp] theorem writeReg_s2_s2 (s : State) (v : Word) : (s.writeReg .s2 v).s2 = v := rfl
@[simp] theorem writeReg_sum (s : State) (v : Word) : s.writeReg .sum v = s := rfl
@[simp] theorem writeReg_sr (s : State) (v : Word) : s.writeReg .sr v = s := rfl

@[simp] theorem writeReg_f (s : State) (r : Reg) (v : Word) : (s.writeReg r v).f = s.f := by cases r <;> rfl
@[simp] theorem writeReg_cause (s : State) (r : Reg) (v : Word) : (s.writeReg r v).cause = s.cause := by cases r <;> rfl
@[simp] theorem writeReg_progress (s : State) (r : Reg) (v : Word) : (s.writeReg r v).progress = s.progress := by
  cases r <;> rfl
@[simp] theorem writeReg_cmd (s : State) (r : Reg) (v : Word) : (s.writeReg r v).cmd = s.cmd := by cases r <;> rfl
@[simp] theorem writeReg_data (s : State) (r : Reg) (v : Word) : (s.writeReg r v).data = s.data := by cases r <;> rfl
@[simp] theorem writeReg_rsp (s : State) (r : Reg) (v : Word) : (s.writeReg r v).rsp = s.rsp := by cases r <;> rfl

@[simp] theorem raiseFault_s1 (c : Cause) (s : State) : (raiseFault c s).s1 = s.s1 := rfl
@[simp] theorem raiseFault_s2 (c : Cause) (s : State) : (raiseFault c s).s2 = s.s2 := rfl
@[simp] theorem raiseFault_f (c : Cause) (s : State) : (raiseFault c s).f = true := rfl
@[simp] theorem raiseFault_cause (c : Cause) (s : State) : (raiseFault c s).cause = causeCode c := rfl
@[simp] theorem raiseFault_progress (c : Cause) (s : State) : (raiseFault c s).progress = s.progress := rfl
@[simp] theorem raiseFault_cmd (c : Cause) (s : State) : (raiseFault c s).cmd = s.cmd := rfl
@[simp] theorem raiseFault_data (c : Cause) (s : State) : (raiseFault c s).data = s.data := rfl
@[simp] theorem raiseFault_rsp (c : Cause) (s : State) : (raiseFault c s).rsp = s.rsp := rfl

@[simp] theorem emptyUpdate_s1 (s : State) : (emptyUpdate s).s1 = 1#32 := rfl
@[simp] theorem emptyUpdate_s2 (s : State) : (emptyUpdate s).s2 = 0#32 := rfl
@[simp] theorem emptyUpdate_f (s : State) : (emptyUpdate s).f = s.f := rfl
@[simp] theorem emptyUpdate_cause (s : State) : (emptyUpdate s).cause = s.cause := rfl
@[simp] theorem emptyUpdate_progress (s : State) : (emptyUpdate s).progress = s.progress := rfl
@[simp] theorem emptyUpdate_cmd (s : State) : (emptyUpdate s).cmd = s.cmd := rfl
@[simp] theorem emptyUpdate_data (s : State) : (emptyUpdate s).data = s.data := rfl
@[simp] theorem emptyUpdate_rsp (s : State) : (emptyUpdate s).rsp = s.rsp := rfl

@[simp] theorem placeWord_s1 (w : CmdWord) (s : State) : (placeWord w s).s1 = s.s1 := rfl
@[simp] theorem placeWord_s2 (w : CmdWord) (s : State) : (placeWord w s).s2 = s.s2 := rfl
@[simp] theorem placeWord_f (w : CmdWord) (s : State) : (placeWord w s).f = s.f := rfl
@[simp] theorem placeWord_cause (w : CmdWord) (s : State) : (placeWord w s).cause = s.cause := rfl
@[simp] theorem placeWord_progress (w : CmdWord) (s : State) : (placeWord w s).progress = none := rfl
@[simp] theorem placeWord_cmd (w : CmdWord) (s : State) : (placeWord w s).cmd = w :: s.cmd := rfl
@[simp] theorem placeWord_data (w : CmdWord) (s : State) : (placeWord w s).data = s.data := rfl
@[simp] theorem placeWord_rsp (w : CmdWord) (s : State) : (placeWord w s).rsp = s.rsp := rfl

@[simp] theorem readReg_s1 (s : State) : s.readReg .s1 = s.s1 := rfl
@[simp] theorem readReg_s2 (s : State) : s.readReg .s2 = s.s2 := rfl
@[simp] theorem readReg_sum (s : State) : s.readReg .sum = pack s.s1 s.s2 := rfl
@[simp] theorem readReg_sr (s : State) : s.readReg .sr = s.sr := rfl

end Sys2Proof.Machine
end

