-- ==== Sys2Proof/Laws/Update.lean ====
section
/-! SUPPORT. What UPDATE can do, said once: one beat, a run of beats, and the two ways `runUpdate` ends. -/

namespace Sys2Proof.Machine

/-! ## One beat -/

@[simp] theorem takeBeat_n (u : UpdateScratch) (v : Beat) : (takeBeat u v).n = u.n := by
  unfold takeBeat takeShort takeGroup takeTail
  split
  · rfl
  · split <;> rfl

theorem isShort_iff (u : UpdateScratch) : u.isShort = true ↔ u.n.toNat < 16 :=
  decide_eq_true_iff

theorem takeBeat_of_short {u : UpdateScratch} (h : u.n.toNat < 16) (v : Beat) : takeBeat u v = takeShort u v := by
  rw [takeBeat, if_pos ((isShort_iff u).mpr h)]

theorem takeBeat_of_group {u : UpdateScratch} (h : 16 ≤ u.n.toNat) (hg : u.p.toNat + 16 ≤ u.n.toNat) (v : Beat) :
    takeBeat u v = takeGroup u v := by
  have hs : ¬ u.isShort = true := by rw [isShort_iff]; omega
  rw [takeBeat, if_neg hs]
  exact if_pos hg

theorem takeBeat_of_tail {u : UpdateScratch} (h : 16 ≤ u.n.toNat) (hg : u.n.toNat < u.p.toNat + 16) (v : Beat) :
    takeBeat u v = takeTail u v := by
  have hs : ¬ u.isShort = true := by rw [isShort_iff]; omega
  rw [takeBeat, if_neg hs]
  exact if_neg (Nat.not_le.mpr hg)

/-- The count after a beat of an unfinished update: 16 more where 16 bytes or more are missing, else the length. -/
theorem takeBeat_p_toNat {u : UpdateScratch} (h : u.wf) (v : Beat) :
    (takeBeat u v).p.toNat = if u.p.toNat + 16 ≤ u.n.toNat then u.p.toNat + 16 else u.n.toNat := by
  obtain ⟨hlt, -, hs⟩ := h
  have hn := u.n.isLt
  by_cases h16 : u.n.toNat < 16
  · have := hs h16
    rw [takeBeat_of_short h16, if_neg (by omega)]
    rfl
  · by_cases hg : u.p.toNat + 16 ≤ u.n.toNat
    · rw [takeBeat_of_group (by omega) hg, if_pos hg]
      have e : (takeGroup u v).p = u.p + 16#32 := rfl
      rw [e, BitVec.toNat_add, BitVec.toNat_ofNat]
      omega
    · rw [takeBeat_of_tail (by omega) (by omega), if_neg hg]
      rfl

theorem isDone_iff (u : UpdateScratch) : u.isDone = true ↔ u.n.toNat ≤ u.p.toNat := by
  simp [UpdateScratch.isDone]

theorem not_isDone_of_wf {u : UpdateScratch} (h : u.wf) : u.isDone = false := by
  have := h.1
  simp [UpdateScratch.isDone]
  omega

/-- A beat either finishes the update or leaves a well-formed scratch, 16 bytes on. -/
theorem takeBeat_wf {u : UpdateScratch} (h : u.wf) (v : Beat) :
    ((takeBeat u v).isDone = true ∧ (takeBeat u v).p.toNat = u.n.toNat ∧ u.n.toNat ≤ u.p.toNat + 16) ∨
    ((takeBeat u v).wf ∧ (takeBeat u v).p.toNat = u.p.toNat + 16) := by
  have hp := takeBeat_p_toNat h v
  obtain ⟨h1, h2, h3⟩ := h
  rw [isDone_iff, takeBeat_n]
  unfold UpdateScratch.wf
  rw [takeBeat_n]
  split at hp <;> omega

/-- After the last beat the pair that UPDATE leaves is below 65521, whatever the scratch held. -/
theorem finalPair_takeBeat_inRange {u : UpdateScratch} (h : u.wf) (v : Beat) : inRange (finalPair (takeBeat u v)) := by
  unfold finalPair
  by_cases hs : u.isShort = true
  · have hs' : (takeBeat u v).isShort = true := by rw [← hs]; simp [UpdateScratch.isShort]
    rw [if_pos hs']
    have hpos : 0 < u.n.toNat := by have := h.1; omega
    obtain ⟨k, hk⟩ := Nat.exists_eq_succ_of_ne_zero (Nat.pos_iff_ne_zero.mp hpos)
    simp only [takeBeat, hs, if_true, takeShort, lanes, hk, List.range_succ, List.map_append, List.foldl_append,
      List.map_cons, List.map_nil, List.foldl_cons, List.foldl_nil]
    exact stepR_inRange _ _
  · have hs' : ¬ (takeBeat u v).isShort = true := by simpa [UpdateScratch.isShort] using hs
    rw [if_neg hs']
    exact reduce_inRange _

/-! ## A run of beats -/

section
variable {take : UpdateScratch → Beat → UpdateScratch} {u : UpdateScratch}

@[simp] theorem takeBeatsBy_nil : takeBeatsBy take u [] = (u, []) := rfl

theorem takeBeatsBy_done (h : u.isDone = true) (d : List Beat) : takeBeatsBy take u d = (u, d) := by
  cases d <;> simp [takeBeatsBy, h]

theorem takeBeatsBy_cons (h : u.isDone = false) (v : Beat) (d : List Beat) :
    takeBeatsBy take u (v :: d) = takeBeatsBy take (take u v) d := by simp [takeBeatsBy, h]

end

/-- Beats that come later are taken as if they had been there: the run over a longer list is the run over its second
part from where the first part ends, when the first part is used up. -/
theorem takeBeatsBy_append (take : UpdateScratch → Beat → UpdateScratch) (u : UpdateScratch) (d more : List Beat) :
    takeBeatsBy take u (d ++ more) =
      if (takeBeatsBy take u d).1.isDone then ((takeBeatsBy take u d).1, (takeBeatsBy take u d).2 ++ more)
      else takeBeatsBy take (takeBeatsBy take u d).1 more := by
  induction d generalizing u with
  | nil =>
    cases h : u.isDone
    · simp [h]
    · simp [h, takeBeatsBy_done h]
  | cons v d ih =>
    cases h : u.isDone
    · rw [List.cons_append, takeBeatsBy_cons h, takeBeatsBy_cons h, ih]
    · simp [takeBeatsBy_done h, h]

@[simp] theorem takeBeats_nil (u : UpdateScratch) : takeBeats u [] = (u, []) := rfl

theorem takeBeats_done {u : UpdateScratch} (h : u.isDone = true) (d : List Beat) : takeBeats u d = (u, d) :=
  takeBeatsBy_done h d

theorem takeBeats_cons {u : UpdateScratch} (h : u.isDone = false) (v : Beat) (d : List Beat) :
    takeBeats u (v :: d) = takeBeats (takeBeat u v) d := takeBeatsBy_cons h v d

theorem takeBeats_append (u : UpdateScratch) (d more : List Beat) :
    takeBeats u (d ++ more) =
      if (takeBeats u d).1.isDone then ((takeBeats u d).1, (takeBeats u d).2 ++ more)
      else takeBeats (takeBeats u d).1 more := takeBeatsBy_append takeBeat u d more

/-- How a run of beats ends: finished with the beats it needed and no more, or with every beat taken and a
well-formed scratch that waits. -/
theorem takeBeats_cases {u : UpdateScratch} (h : u.wf) (d : List Beat) :
    ((takeBeats u d).1.isDone = true ∧ beatsNeeded (u.n.toNat - u.p.toNat) ≤ d.length ∧
      (takeBeats u d).2 = d.drop (beatsNeeded (u.n.toNat - u.p.toNat)) ∧ inRange (finalPair (takeBeats u d).1)) ∨
    ((takeBeats u d).1.wf ∧ d.length < beatsNeeded (u.n.toNat - u.p.toNat) ∧ (takeBeats u d).2 = [] ∧
      (takeBeats u d).1.n = u.n ∧ (takeBeats u d).1.p.toNat = u.p.toNat + 16 * d.length) := by
  induction d generalizing u with
  | nil =>
    right
    refine ⟨h, ?_, rfl, rfl, by simp⟩
    have := h.1
    simp only [List.length_nil, beatsNeeded]
    omega
  | cons v d ih =>
    rw [takeBeats_cons (not_isDone_of_wf h)]
    have hlt := h.1
    obtain ⟨hd, hp, hle⟩ | ⟨hw, hp⟩ := takeBeat_wf h v
    · left
      have hb : beatsNeeded (u.n.toNat - u.p.toNat) = 1 := by unfold beatsNeeded; omega
      rw [takeBeats_done hd, hb]
      exact ⟨hd, by simp, rfl, finalPair_takeBeat_inRange h v⟩
    · have hb : beatsNeeded (u.n.toNat - u.p.toNat) =
          beatsNeeded ((takeBeat u v).n.toNat - (takeBeat u v).p.toNat) + 1 := by
        have := hw.1
        rw [takeBeat_n, hp] at *
        unfold beatsNeeded
        omega
      obtain ⟨h1, h2, h3, h4⟩ | ⟨h1, h2, h3, h4, h5⟩ := ih hw
      · left
        exact ⟨h1, by rw [hb, List.length_cons]; omega, by rw [h3, hb, List.drop_succ_cons], h4⟩
      · right
        refine ⟨h1, by rw [hb, List.length_cons]; omega, h3, by rw [h4, takeBeat_n], ?_⟩
        rw [h5, hp, List.length_cons]
        omega

/-! ## The command -/

theorem startUpdate_wf {n : Word} (h : n ≠ 0#32) (s : State) : (startUpdate n s).wf := by
  have : n.toNat ≠ 0 := fun e => h (BitVec.eq_of_toNat_eq (by simpa using e))
  refine ⟨?_, ?_, fun _ => ?_⟩ <;> simp [startUpdate]
  omega

/-! ## Under either reading of `OOR_MODEL` -/

@[simp] theorem valueIsOpen_wrap32 (q : Pair) : valueIsOpen .wrap32 q = false := rfl

theorem valueIsOpen_valid (m : OorModel) {q : Pair} (h : inRange q) : valueIsOpen m q = false := by
  cases m
  · rfl
  · have : q.1.toNat < Config.modulus ∧ q.2.toNat < Config.modulus := h
    simp [valueIsOpen, this]

theorem takeUnder_closed {m : OorModel} {q : Pair} (h : valueIsOpen m q = false) : takeUnder m q = takeBeat := by
  simp [takeUnder, h]

theorem finalUnder_closed {m : OorModel} {q : Pair} (h : valueIsOpen m q = false) (u : UpdateScratch) :
    finalUnder m q u = finalPair u := by simp [finalUnder, h]

@[simp] theorem takeUnder_n (m : OorModel) (q : Pair) (u : UpdateScratch) (v : Beat) : (takeUnder m q u v).n = u.n := by
  unfold takeUnder
  split
  · exact takeBeat_n u v
  · exact takeBeat_n u v

@[simp] theorem takeUnder_p (m : OorModel) (q : Pair) (u : UpdateScratch) (v : Beat) :
    (takeUnder m q u v).p = (takeBeat u v).p := by
  unfold takeUnder
  split <;> rfl

/-- How an UPDATE counts depends on `n` and `p` alone. -/
theorem takeBeat_p_congr {u u' : UpdateScratch} (hn : u.n = u'.n) (hp : u.p = u'.p) (v : Beat) :
    (takeBeat u v).p = (takeBeat u' v).p := by
  have hs : u.isShort = u'.isShort := by simp only [UpdateScratch.isShort, hn]
  unfold takeBeat
  rw [hs, hn, hp]
  split
  · exact hn
  · split
    · show u.p + _ = u'.p + _
      rw [hp]
    · exact hn

/-- Under either reading an UPDATE takes the same beats and counts alike. -/
theorem takeBeatsBy_takeUnder_count (m : OorModel) (q : Pair) {u u' : UpdateScratch} (hn : u.n = u'.n) (hp : u.p = u'.p)
    (d : List Beat) :
    (takeBeatsBy (takeUnder m q) u d).2 = (takeBeats u' d).2 ∧
    (takeBeatsBy (takeUnder m q) u d).1.n = (takeBeats u' d).1.n ∧
    (takeBeatsBy (takeUnder m q) u d).1.p = (takeBeats u' d).1.p := by
  induction d generalizing u u' with
  | nil => exact ⟨rfl, hn, hp⟩
  | cons v d ih =>
    have hd : u.isDone = u'.isDone := by simp only [UpdateScratch.isDone, hn, hp]
    cases h : u.isDone
    · rw [takeBeatsBy_cons h, takeBeats_cons (hd ▸ h)]
      exact ih (by rw [takeUnder_n, takeBeat_n, hn]) (by rw [takeUnder_p, takeBeat_p_congr hn hp])
    · rw [takeBeatsBy_done h, takeBeats_done (hd ▸ h)]
      exact ⟨rfl, hn, hp⟩

theorem takeBeatsBy_takeUnder_isDone (m : OorModel) (q : Pair) (u : UpdateScratch) (d : List Beat) :
    (takeBeatsBy (takeUnder m q) u d).1.isDone = (takeBeats u d).1.isDone := by
  obtain ⟨-, hn, hp⟩ := takeBeatsBy_takeUnder_count m q (u := u) rfl rfl d
  simp only [UpdateScratch.isDone, hn, hp]

theorem finalUnder_inRange {m : OorModel} {q : Pair} {u : UpdateScratch}
    (h : valueIsOpen m q = false → inRange (finalPair u)) : inRange (finalUnder m q u) := by
  unfold finalUnder
  split
  · exact reduce_inRange _
  · rename_i ho
    exact h (by simpa using ho)

/-- `runUpdate` ends in one of two ways, under either reading of `OOR_MODEL`: the write-back, or the wait. -/
theorem runUpdate_under_cases (m : OorModel) (u : UpdateScratch) (s : State) :
    ((takeBeats u s.data).1.isDone = true ∧
      runUpdate m u s = { s with
        s1 := (finalUnder m (s.s1, s.s2) (takeBeatsBy (takeUnder m (s.s1, s.s2)) u s.data).1).1
        s2 := (finalUnder m (s.s1, s.s2) (takeBeatsBy (takeUnder m (s.s1, s.s2)) u s.data).1).2
        data := (takeBeats u s.data).2 }) ∨
    ((takeBeats u s.data).1.isDone = false ∧
      runUpdate m u s = { s with
        data := (takeBeats u s.data).2
        progress := some (.update (takeBeatsBy (takeUnder m (s.s1, s.s2)) u s.data).1) }) := by
  have hd := takeBeatsBy_takeUnder_isDone m (s.s1, s.s2) u s.data
  have h2 := (takeBeatsBy_takeUnder_count m (s.s1, s.s2) (u := u) rfl rfl s.data).1
  cases h : (takeBeats u s.data).1.isDone
  · exact .inr ⟨rfl, by simp [runUpdate, hd, h, h2]⟩
  · exact .inl ⟨rfl, by simp [runUpdate, hd, h, h2]⟩

/-- Where the value is not open the rules' own steps are run. -/
theorem runUpdate_closed {m : OorModel} {s : State} (h : valueIsOpen m (s.s1, s.s2) = false) (u : UpdateScratch) :
    runUpdate m u s =
      if (takeBeats u s.data).1.isDone then { s with
        s1 := (finalPair (takeBeats u s.data).1).1
        s2 := (finalPair (takeBeats u s.data).1).2
        data := (takeBeats u s.data).2 }
      else { s with
        data := (takeBeats u s.data).2
        progress := some (.update (takeBeats u s.data).1) } := by
  simp only [runUpdate, takeUnder_closed h, finalUnder_closed h]
  rfl

/-- `runUpdate` under the `OOR_MODEL` of Config. -/
theorem runUpdate_default (u : UpdateScratch) (s : State) :
    runUpdate Config.oorModel u s =
      if (takeBeats u s.data).1.isDone then { s with
        s1 := (finalPair (takeBeats u s.data).1).1
        s2 := (finalPair (takeBeats u s.data).1).2
        data := (takeBeats u s.data).2 }
      else { s with
        data := (takeBeats u s.data).2
        progress := some (.update (takeBeats u s.data).1) } := runUpdate_closed rfl u

/-- Its two ways. -/
theorem runUpdate_cases (u : UpdateScratch) (s : State) :
    ((takeBeats u s.data).1.isDone = true ∧
      runUpdate Config.oorModel u s = { s with
        s1 := (finalPair (takeBeats u s.data).1).1
        s2 := (finalPair (takeBeats u s.data).1).2
        data := (takeBeats u s.data).2 }) ∨
    ((takeBeats u s.data).1.isDone = false ∧
      runUpdate Config.oorModel u s = { s with
        data := (takeBeats u s.data).2
        progress := some (.update (takeBeats u s.data).1) }) := by
  rw [runUpdate_default]
  cases h : (takeBeats u s.data).1.isDone
  · exact .inr ⟨rfl, by simp⟩
  · exact .inl ⟨rfl, by simp⟩

end Sys2Proof.Machine
end

