-- ==== Sys2Proof/Laws/Step.lean ====
section
/-! SUPPORT. What one execution, one step and one run can do, said once. -/

namespace Sys2Proof.Machine

/-- The ways a well-formed command answers a next state. -/
theorem exec_cases {i : Instr} {s t : State} (hw : i.wf = true) (h : exec i s = .next t) :
    (i = .init ∧ t = { s with s1 := 1#32, s2 := 0#32 }) ∨
    (∃ v, i = .wr .s1 v ∧ t = { s with s1 := v }) ∨
    (∃ v, i = .wr .s2 v ∧ t = { s with s2 := v }) ∨
    (∃ r, i = .rd r ∧ t = respond Config.rspDepth r s) ∨
    (i = .update 0#32 ∧ t = { s with s1 := 1#32, s2 := 0#32 }) ∨
    (∃ n, n ≠ 0#32 ∧ i = .update n ∧ t = runUpdate Config.oorModel (startUpdate n s) s) := by
  cases i with
  | init => injection h with h; exact .inl ⟨rfl, h.symm⟩
  | wr r v =>
    cases r <;> simp [Instr.wf, Reg.writable] at hw <;> injection h with h
    · exact .inr (.inl ⟨v, rfl, h.symm⟩)
    · exact .inr (.inr (.inl ⟨v, rfl, h.symm⟩))
  | rd r => injection h with h; exact .inr (.inr (.inr (.inl ⟨r, rfl, h.symm⟩)))
  | update n =>
    by_cases hn : n = 0#32
    · subst hn
      injection h with h
      exact .inr (.inr (.inr (.inr (.inl ⟨rfl, h.symm⟩))))
    · simp only [exec, execUpdate, updateUnder, hn, if_false] at h
      injection h with h
      exact .inr (.inr (.inr (.inr (.inr ⟨n, hn, rfl, h.symm⟩))))

/-- The six things a step can do: go on with the command in progress, wait for a word, answer `RD SR` in the faulted
state, discard a word there, take an illegal word, or execute a command. -/
theorem step_cases {s t : State} (h : step s = .next t) :
    (∃ g, s.progress = some g ∧ t = resume g s) ∨
    (s.progress = none ∧ s.cmd = [] ∧ t = s) ∨
    (∃ w rest, s.progress = none ∧ s.cmd = w :: rest ∧ s.f = true ∧ decode w = .command (.rd .sr) ∧
      t = respond Config.rspDepth .sr { s with cmd := rest }) ∨
    (∃ w rest, s.progress = none ∧ s.cmd = w :: rest ∧ s.f = true ∧ decode w ≠ .command (.rd .sr) ∧
      t = { s with cmd := rest }) ∨
    (∃ w rest c, s.progress = none ∧ s.cmd = w :: rest ∧ s.f = false ∧ decode w = .illegal c ∧
      t = raiseFault c { s with cmd := rest }) ∨
    (∃ w rest i, s.progress = none ∧ s.cmd = w :: rest ∧ s.f = false ∧ decode w = .command i ∧
      exec i { s with cmd := rest } = .next t) := by
  unfold step turn at h
  cases hp : s.progress with
  | some g =>
    rw [hp] at h
    injection h with h
    exact .inl ⟨g, rfl, h.symm⟩
  | none =>
    rw [hp] at h
    cases hc : s.cmd with
    | nil =>
      rw [hc] at h
      injection h with h
      exact .inr (.inl ⟨rfl, rfl, h.symm⟩)
    | cons w rest =>
      rw [hc] at h
      simp only [serve, faulted] at h
      cases hf : s.f
      · simp only [hf, Bool.false_eq_true, if_false] at h
        cases hd : decode w with
        | illegal c =>
          rw [hd] at h
          injection h with h
          exact .inr (.inr (.inr (.inr (.inl ⟨w, rest, c, rfl, rfl, rfl, hd, h.symm⟩))))
        | command i =>
          rw [hd] at h
          exact .inr (.inr (.inr (.inr (.inr ⟨w, rest, i, rfl, rfl, rfl, hd, h⟩))))
      · simp only [hf, if_true] at h
        by_cases hd : decode w = .command (.rd .sr)
        · rw [if_pos hd] at h
          injection h with h
          exact .inr (.inr (.inl ⟨w, rest, rfl, rfl, rfl, hd, h.symm⟩))
        · rw [if_neg hd] at h
          injection h with h
          exact .inr (.inr (.inr (.inl ⟨w, rest, rfl, rfl, rfl, hd, h.symm⟩)))

/-- A run of events that reaches a state goes through its first event. -/
theorem runEvents_cons {e : Event} {es : List Event} {s t : State} (h : runEvents (e :: es) s = .next t) :
    ∃ m, applyEvent e s = .next m ∧ runEvents es m = .next t := by
  simp only [runEvents] at h
  split at h
  · rename_i m hm
    exact ⟨m, hm, h⟩
  · cases h
  · cases h

@[simp] theorem runCore_zero (s : State) : runCore 0 s = .next s := rfl

theorem runCore_succ {k : Nat} {s t : State} (h : step s = .next t) : runCore (k + 1) s = runCore k t := by
  have hs : Sys2Proof.core.step s = .next t := h
  unfold runCore
  simp only [Host.Core.run]
  rw [hs]

/-- The word at the head of the command channel of a placed state is the one placed. -/
theorem withFetchWord_eq (s : State) (nbits w : Nat) :
    s.withFetchWord nbits w = placeWord (tableWord nbits w) s := rfl

end Sys2Proof.Machine
end

