-- ==== Sys2Proof/Tests/Slice0.lean ====
section
/-! SUPPORT. The model's own tests. Expected values come from spec/95_test_vectors.md (the section is named at each
test), the words from 30_encoding R75 to R80. The witness theorems show that the hypotheses of each statement can be
met. -/

namespace Sys2Proof.Tests

open Sys2Proof.Machine

/-! ## Small states -/

/-- The running state `(s1, s2)` with empty channels. -/
def idle (s1 s2 : Word) : State :=
  { s1 := s1, s2 := s2, f := false, cause := 0#2, progress := none, cmd := [], data := [], rsp := [] }

/-- The running state `(s1, s2)` with one word and some beats in the channels. -/
def loaded (s1 s2 : Word) (w : CmdWord) (d : List Beat) : State := { idle s1 s2 with cmd := [w], data := d }

/-- The faulted state of 95 section 5: `(295, 589)`, `SR = 3`, one word waiting. -/
def broken (w : CmdWord) : State := { loaded 295 589 w [] with f := true, cause := 1#2 }

/-- A long UPDATE of 17 bytes that waits for its second beat. -/
def waiting : State := { idle 1 0 with progress := some (.update { a := 137, b := 832, n := 17, p := 16 }) }

/-- The state an outcome holds, for tests. -/
def after (o : Host.Outcome State Fault Refusal) : Option State :=
  match o with
  | .next s => some s
  | .fault _ => none
  | .refused _ => none

theorem next_of_after {o : Host.Outcome State Fault Refusal} {t : State} (h : after o = some t) : o = .next t := by
  cases o with
  | next s => exact congrArg _ (Option.some.inj h)
  | fault _ => cases h
  | refused _ => cases h

theorem inv_of_idle {s : State} (hf : s.f = false ↔ s.cause = 0#2) (hp : s.progress = none) : s.inv :=
  ⟨hf, fun g hg => by rw [hp] at hg; cases hg⟩

/-! ## WellFormed: each check refuses -/

theorem test_wr_sum_is_ill_formed : (Instr.wr .sum 1).wf = false := by decide

theorem test_wr_sr_is_ill_formed : (Instr.wr .sr 1).wf = false := by decide

theorem test_wr_storage_is_well_formed : (Instr.wr .s1 1).wf = true ∧ (Instr.wr .s2 1).wf = true := by decide

/-! ## Decoding (95 section 2.1) -/

theorem test_decode_init : decode 0x0100000000000000#64 = .command .init := by decide

theorem test_decode_wr_s1 : decode 0x0200000000000001#64 = .command (.wr .s1 1) := by decide

theorem test_decode_wr_s2 : decode 0x02010000FFFFFFFF#64 = .command (.wr .s2 0xFFFFFFFF#32) := by decide

theorem test_decode_rd :
    decode 0x0300000000000000#64 = .command (.rd .s1) ∧ decode 0x0301000000000000#64 = .command (.rd .s2) ∧
    decode 0x0302000000000000#64 = .command (.rd .sum) ∧ decode 0x0303000000000000#64 = .command (.rd .sr) := by
  decide

theorem test_decode_update :
    decode 0x0400000000000000#64 = .command (.update 0) ∧
    decode 0x04000000FFFFFFFF#64 = .command (.update 4294967295#32) := by decide

theorem test_decode_illegal_opcode :
    decode 0#64 = .illegal .illegalOpcode ∧ decode 0xFFFFFFFFFFFFFFFF#64 = .illegal .illegalOpcode ∧
    decode 0x0500000000000000#64 = .illegal .illegalOpcode ∧
    decode 0x0905000100000000#64 = .illegal .illegalOpcode := by decide

theorem test_decode_illegal_register :
    decode 0x0202000000000001#64 = .illegal .illegalRegister ∧
    decode 0x0203000000000000#64 = .illegal .illegalRegister ∧
    decode 0x0205000100000000#64 = .illegal .illegalRegister ∧
    decode 0x0304000000000000#64 = .illegal .illegalRegister ∧
    decode 0x03FF0000FFFFFFFF#64 = .illegal .illegalRegister := by decide

theorem test_decode_reserved :
    decode 0x0100000100000000#64 = .illegal .reservedNotZero ∧
    decode 0x0101000000000000#64 = .illegal .reservedNotZero ∧
    decode 0x0100000000000001#64 = .illegal .reservedNotZero ∧
    decode 0x0300000000000001#64 = .illegal .reservedNotZero ∧
    decode 0x0302000100000000#64 = .illegal .reservedNotZero ∧
    decode 0x0200000100000005#64 = .illegal .reservedNotZero ∧
    decode 0x0401000000000003#64 = .illegal .reservedNotZero ∧
    decode 0x0400800000000003#64 = .illegal .reservedNotZero := by decide

theorem test_decode_table_word :
    decodeTableWord 64 0x0201000000000005 = some (.wr .s2 5) ∧ decodeTableWord 64 0x0500000000000000 = none := by
  decide

/-! ## One step of each command (95 sections 1, 2.2, 3, 4, 5) -/

theorem test_init_ignores_the_state :
    (after (step (loaded 4294967295#32 70000#32 0x0100000000000000#64 []))).map (fun t => (t.s1, t.s2)) =
      some (1#32, 0#32) := by decide

theorem test_wr_accepts_an_out_of_range_value :
    (after (step (loaded 1 0 0x020000000000FFF1#64 []))).map (fun t => (t.s1, t.s2)) = some (65521#32, 0#32) := by
  decide

theorem test_wr_s2_keeps_s1 :
    (after (step (loaded 405 0 0x02010000000003DA#64 []))).map (fun t => (t.s1, t.s2)) = some (405#32, 986#32) := by
  decide

theorem test_rd_sum_is_packed :
    (after (step (loaded 295 589 0x0302000000000000#64 []))).map (·.rsp) = some [0x024D0127#32] := by decide

theorem test_rd_sum_overlaps_out_of_range :
    (after (step (loaded 0x0006789A#32 0x00012345#32 0x0302000000000000#64 []))).map (·.rsp) =
      some [0x2347789A#32] := by decide

theorem test_update_abc_ignores_unused_lanes :
    (after (step (loaded 1 0 0x0400000000000003#64 [0xFFFFFFFFFFFFFFFFFFFFFFFFFF636261#128]))).map
      (fun t => (t.s1, t.s2, t.data)) = some (295#32, 589#32, []) := by decide

theorem test_update_long_with_tail :
    (after (step (loaded 1 0 0x040000000000002B#64
      [0x206E776F7262206B6369757120656854#128, 0x74207265766F2073706D756A20786F66#128,
       0x0000000000676F6420797A616C206568#128]))).map (fun t => (t.s1, t.s2)) = some (4058#32, 23516#32) := by decide

/-- 95 section 1, "abc" from the identity state: the start is valid, so `any_in_range` gives the same pair. -/
theorem test_any_in_range_from_a_valid_start :
    after (updateUnder .anyInRange 3 { idle 1 0 with data := [0x636261] }) = some (idle 295 589) := by decide

/-- 95 section 5: an illegal UPDATE word faults with cause 3 and leaves its beat. -/
theorem test_illegal_word_faults :
    (after (step (loaded 295 589 0x0401000000000003#64 [7]))).map (fun t => (t.s1, t.sr, t.data, t.cmd)) =
      some (295#32, 7#32, [7], []) := by decide

/-- The first step after reset runs the placed word. -/
theorem test_placed_word_runs_first :
    (after (step (State.reset.withFetchWord 64 0x0201000000000005))).map (fun t => (t.s1, t.s2, t.cmd)) =
      some (1#32, 5#32, []) := by decide

/-! ## The shared operations -/

/-- 95 section 3.1, `n = 5553`: beat 346 ends block 0 with the pair `(707241, 1961508800)`, reduced to
`(52031, 6623)`. The pair before that beat is worked back from these by the closed form of 41_update R125. -/
theorem test_block_end_reduces :
    takeBeat { a := 704817#32, b := 1950213504#32, n := 5553#32, p := 5536#32 } 0xCCC5BEB7B0A9A29B948D867F78716A63#128 =
      { a := 52031#32, b := 6623#32, n := 5553#32, p := 5552#32 } ∧
    group (704817#32, 1950213504#32) 0xCCC5BEB7B0A9A29B948D867F78716A63#128 = (707241#32, 1961508800#32) := by decide

/-- 95 section 1.3: the packed beat of "Wikipedia". -/
theorem test_packed_beat :
    packBeats [0x57, 0x69, 0x6B, 0x69, 0x70, 0x65, 0x64, 0x69, 0x61] =
      [0x000000000000006169646570696B6957#128] := by decide

/-- 95 section 4: from `(0xFFFFFF00, 0)` fifteen bytes of `0xFF` are saved by the reductions, sixteen wrap. -/
theorem test_out_of_range_depends_on_the_regime :
    updateRegimes 15 (0xFFFFFF00#32, 0#32) [0x00FFFFFFFFFFFFFFFFFFFFFFFFFFFFFF#128] =
      some ((3794#32, 30135#32), []) ∧
    updateRegimes 16 (0xFFFFFF00#32, 0#32) [0xFFFFFFFFFFFFFFFFFFFFFFFFFFFFFFFF#128] =
      some ((3824#32, 30584#32), []) := by decide

/-- 30_encoding R83: what the other pseudo-commands stand for. -/
theorem test_pseudo_commands :
    (Pseudo.ldst 405 986).words = [0x0200000000000195#64, 0x02010000000003DA#64] ∧
    Pseudo.rdst.words = [0x0300000000000000#64, 0x0301000000000000#64] ∧
    Pseudo.rdsum.words = [0x0302000000000000#64] := by decide

/-! ## Witnesses: the hypotheses of each statement are met together -/

theorem witness_DecodeOfEncode : ∃ i : Instr, i.wf = true := ⟨.wr .s2 0xFFFFFFFF#32, by decide⟩

theorem witness_LegalWord : ∃ w i, decode w = .command i := ⟨0x0303000000000000#64, .rd .sr, by decide⟩

theorem witness_StepRuns : ∃ (s : State) (w : CmdWord) (rest : List CmdWord) (i : Instr),
    s.progress = none ∧ s.f = false ∧ s.cmd = w :: rest ∧ decode w = .command i :=
  ⟨loaded 1 0 0x0400000000000000#64 [], 0x0400000000000000#64, [], .update 0, by decide⟩

theorem witness_IllegalWord : ∃ (s : State) (w : CmdWord) (rest : List CmdWord) (c : Cause),
    s.progress = none ∧ s.f = false ∧ s.cmd = w :: rest ∧ decode w = .illegal c :=
  ⟨loaded 1 0 0x0202000000000001#64 [], 0x0202000000000001#64, [], .illegalRegister, by decide⟩

theorem witness_FaultedReadSr : ∃ (s : State) (w : CmdWord) (rest : List CmdWord),
    s.inv ∧ s.progress = none ∧ s.f = true ∧ s.cmd = w :: rest ∧ decode w = .command (.rd .sr) ∧
    hasRoom Config.rspDepth s.rsp = true :=
  ⟨broken 0x0303000000000000#64, 0x0303000000000000#64, [], inv_of_idle (by decide) rfl, by decide⟩

theorem witness_FaultedDiscard : ∃ (s : State) (w : CmdWord) (rest : List CmdWord),
    s.inv ∧ s.progress = none ∧ s.f = true ∧ s.cmd = w :: rest ∧ decode w ≠ .command (.rd .sr) :=
  ⟨broken 0x0202000000000001#64, 0x0202000000000001#64, [], inv_of_idle (by decide) rfl, by decide⟩

/-- A state that steps to another: for the statements about `step s = .next t`. -/
theorem witness_Step : ∃ s t : State, s.inv ∧ step s = .next t ∧ t.f ≠ s.f :=
  ⟨loaded 295 589 0x0500000000000000#64 [], { broken 0 with cmd := [] }, inv_of_idle (by decide) rfl,
    next_of_after (by decide), by decide⟩

theorem witness_FaultIsSticky : ∃ (es : List Event) (s : State), s.inv ∧ s.f = true ∧ Event.reset ∉ es ∧ es ≠ [] :=
  ⟨[.core, .command 0x0302000000000000#64, .beat 7, .take], broken 0x0100000000000000#64,
    inv_of_idle (by decide) rfl, by decide⟩

theorem witness_WaitingForAWord : ∃ s : State, s.progress = none ∧ s.cmd = [] := ⟨State.reset, by decide⟩

theorem waiting_scratch_wf : UpdateScratch.wf { a := 137, b := 832, n := 17, p := 16 } :=
  ⟨by decide, by decide, by decide⟩

theorem witness_WaitingForABeat : ∃ (s : State) (u : UpdateScratch),
    s.progress = some (.update u) ∧ u.wf ∧ s.data = [] :=
  ⟨waiting, _, rfl, waiting_scratch_wf, rfl⟩

theorem witness_ChannelsInProgress : ∃ s t : State, step s = .next t ∧ s.progress ≠ none :=
  ⟨waiting, waiting, next_of_after (by decide), by decide⟩

theorem witness_PortsWithRoom : ∃ (depth : Option Nat) (s : State) (x : Word) (rest : List Word),
    hasRoom depth s.cmd = true ∧ hasRoom depth s.data = true ∧ s.rsp = x :: rest :=
  ⟨some 1, { idle 1 0 with rsp := [5] }, 5, [], by decide⟩

theorem witness_PortsWithoutRoom : ∃ (depth : Option Nat) (s : State),
    hasRoom depth s.cmd = false ∧ hasRoom depth s.data = false :=
  ⟨some 1, loaded 1 0 0x0100000000000000#64 [7], by decide⟩

theorem witness_ThreeWays : ∃ (s : State) (w : CmdWord) (rest : List CmdWord),
    s.f = true ∧ s.progress = none ∧ s.cmd = w :: rest ∧ decode w = .command .init :=
  ⟨broken 0x0100000000000000#64, 0x0100000000000000#64, [], by decide⟩

theorem witness_ThreeWaysUpdate : ∃ (s : State) (w : CmdWord) (rest : List CmdWord),
    s.f = true ∧ s.progress = none ∧ s.cmd = w :: rest ∧ decode w = .command (.update 0#32) :=
  ⟨broken 0x0400000000000000#64, 0x0400000000000000#64, [], by decide⟩

theorem witness_ValidState : ∃ s : State, s.valid := ⟨idle 65520#32 65520#32, by decide, by decide⟩

theorem witness_RunFromReset : ∃ (es : List Event) (t : State), runEvents es State.reset = .next t ∧ t.f = true :=
  ⟨[.command 0#64, .core], { State.reset with f := true, cause := 1#2 }, next_of_after (by decide), by decide⟩

theorem witness_RunFromInv : ∃ (es : List Event) (s t : State), s.inv ∧ runEvents es s = .next t ∧ es ≠ [] :=
  ⟨[.command 0#64, .core], State.reset, { State.reset with f := true, cause := 1#2 },
    inv_of_idle (by decide) rfl, next_of_after (by decide), by decide⟩

theorem witness_RdRoom : ∃ s : State, hasRoom Config.rspDepth s.rsp = true := ⟨State.reset, by decide⟩

theorem witness_RdWaits : ∃ (d : Nat) (s : State),
    s.progress = none ∧ s.rsp.length = d + 1 ∧ hasRoom Config.rspDepth s.rsp.tail = true :=
  ⟨0, { idle 1 0 with rsp := [5] }, by decide⟩

theorem witness_RdResumes : ∃ (r : Reg) (s : State),
    s.progress = some (.read r) ∧ hasRoom Config.rspDepth s.rsp = true :=
  ⟨.sum, { idle 295 589 with progress := some (.read .sum) }, by decide⟩

theorem witness_Frames : ∃ s t1 t2 t3 t4 : State,
    exec .init s = .next t1 ∧ exec (.wr .s2 7) s = .next t2 ∧ exec (.rd .s1) s = .next t3 ∧
    hasRoom Config.rspDepth s.rsp = true ∧ exec (.update 1) s = .next t4 ∧
    beatsNeeded (1#32).toNat ≤ s.data.length :=
  ⟨{ idle 1 0 with data := [0x61] }, _, _, _, _, rfl, rfl, rfl, by decide, rfl, by decide⟩

theorem witness_FramesWait : ∃ s t : State,
    exec (.update 17) s = .next t ∧ s.data.length < beatsNeeded (17#32).toNat :=
  ⟨idle 1 0, _, rfl, by decide⟩

theorem witness_StepR : ∃ a b : Word, a.toNat < 65521 ∧ b.toNat < 65521 := ⟨65520#32, 65520#32, by decide⟩

theorem witness_NoWrap : ∃ (q : Pair) (buf : List Byte), inRange q ∧ buf.length ≤ 5552 ∧ buf ≠ [] :=
  ⟨(65520#32, 65520#32), [0xFF], ⟨by decide, by decide⟩, by decide⟩

theorem witness_ShortLow : ∃ (n : Word) (s : State) (v : Beat) (rest : List Beat),
    1 ≤ n.toNat ∧ n.toNat ≤ 15 ∧ s.data = v :: rest ∧ n = 1#32 :=
  ⟨1#32, { idle 1 0 with data := [0x61] }, 0x61, [], by decide⟩

theorem witness_ShortHigh : ∃ (n : Word) (s : State) (v : Beat) (rest : List Beat),
    1 ≤ n.toNat ∧ n.toNat ≤ 15 ∧ s.data = v :: rest ∧ n = 15#32 :=
  ⟨15#32, { idle 1 0 with data := [0x61] }, 0x61, [], by decide⟩

/-- A valid start, a non-empty update and its beats: for the statements about a completing UPDATE. -/
theorem witness_UpdateWithBeats : ∃ (n : Word) (s : State),
    s.valid ∧ 1 ≤ n.toNat ∧ beatsNeeded n.toNat ≤ s.data.length :=
  ⟨17#32, { idle 65520#32 65520#32 with data := [0x6C655E575049423B342D261F18110A03#128, 0x73] },
    ⟨by decide, by decide⟩, by decide, by decide⟩

/-- A start out of range, and the empty update without a beat. -/
theorem witness_OorModel : ∃ (n : Word) (s t : State),
    beatsNeeded n.toNat ≤ s.data.length ∧ ¬ s.s1.toNat < 65521 ∧ 1 ≤ n.toNat ∧
    beatsNeeded (0#32).toNat ≤ t.data.length :=
  ⟨3#32, { idle 70000#32 70000#32 with data := [0x636261] }, idle 1 0, by decide⟩

theorem witness_UpdateWithoutBeats : ∃ (n : Word) (s : State),
    s.progress = none ∧ s.data.length < beatsNeeded n.toNat ∧ ∃ t, exec (.update n) s = .next t :=
  ⟨17#32, { idle 1 0 with data := [0x6C655E575049423B342D261F18110A03#128] }, by decide, by decide, _, rfl⟩

/-- The waiting UPDATE completes when its beat arrives. -/
theorem witness_ResumedUpdate : ∃ (s t : State) (u : UpdateScratch),
    s.progress = some (.update u) ∧ u.wf ∧ step s = .next t ∧ t.progress = none :=
  ⟨{ waiting with data := [0x11] }, { idle 154 986 with progress := none }, _, rfl, waiting_scratch_wf,
    next_of_after (by decide), by decide⟩

theorem witness_TailWithStepR : ∃ (q : Pair) (groups tail : List Byte),
    inRange q ∧ groups.length + tail.length ≤ 5552 ∧ tail ≠ [] :=
  ⟨(65520#32, 65520#32), [1], [0xFF], ⟨by decide, by decide⟩, by decide⟩

theorem witness_Chunking : ∃ (chunks : List (List Byte)) (s : State),
    s.valid ∧ s.f = false ∧ s.progress = none ∧ chunks ≠ [] ∧ (∀ c ∈ chunks, c ≠ [] ∧ c.length < 2 ^ 32) ∧
    chunks.flatten.length < 2 ^ 32 :=
  ⟨[[0x57, 0x69], [0x6B]], idle 1 0, ⟨by decide, by decide⟩, by decide⟩

theorem witness_EmptyChunk : ∃ (before after : List (List Byte)) (s : State),
    s.f = false ∧ s.progress = none ∧ (∀ c ∈ before, c.length < 2 ^ 32) ∧
    (∀ c ∈ after, c ≠ [] ∧ c.length < 2 ^ 32) ∧ before ≠ [] ∧ after ≠ [] :=
  ⟨[[0x57], []], [[0x70]], idle 1 0, by decide⟩

theorem witness_SameBuffer : ∃ (n : Word) (s t : State), s.s1 = t.s1 ∧ s.s2 = t.s2 ∧
    beatsNeeded n.toNat ≤ s.data.length ∧ beatsNeeded n.toNat ≤ t.data.length ∧
    bufferOf n.toNat s.data = bufferOf n.toNat t.data ∧ s.data ≠ t.data :=
  ⟨3#32, { idle 1 0 with data := [0x636261] }, { idle 1 0 with data := [0xFF636261] }, by decide⟩

theorem witness_SameBufferOutOfRange : ∃ (n : Word) (s t : State), s.s1 = t.s1 ∧ s.s2 = t.s2 ∧
    beatsNeeded n.toNat ≤ s.data.length ∧ beatsNeeded n.toNat ≤ t.data.length ∧
    bufferOf n.toNat s.data = bufferOf n.toNat t.data ∧ s.data ≠ t.data ∧ ¬ s.s1.toNat < 65521 :=
  ⟨3#32, { idle 70000 1 with data := [0x636261] }, { idle 70000 1 with data := [0xFF636261] }, by decide⟩

/-- 95 section 4: `(70000, 70000)` with "abc", and 16 bytes of `0xFF` from `(1, 0x80000000)`: no addition wraps. -/
theorem witness_OutOfRangeShort : ∃ (n : Word) (s : State), 1 ≤ n.toNat ∧ beatsNeeded n.toNat ≤ s.data.length ∧
    n.toNat < 16 ∧ ¬ s.s1.toNat < 65521 ∧
    s.s1.toNat + byteSum ((bufferOf n.toNat s.data).take 1) < 2 ^ 32 ∧
    s.s2.toNat + (s.s1.toNat + byteSum ((bufferOf n.toNat s.data).take 1)) % 65521 < 2 ^ 32 :=
  ⟨3#32, { idle 70000#32 70000#32 with data := [0x636261] }, by decide⟩

theorem witness_OutOfRangeLong : ∃ (n : Word) (s : State), 1 ≤ n.toNat ∧ beatsNeeded n.toNat ≤ s.data.length ∧
    16 ≤ n.toNat ∧ ¬ s.s2.toNat < 65521 ∧
    s.s1.toNat + byteSum ((bufferOf n.toNat s.data).take 5552) < 2 ^ 32 ∧
    s.s2.toNat + ((bufferOf n.toNat s.data).take 5552).length * s.s1.toNat +
      weightedSum ((bufferOf n.toNat s.data).take 5552) < 2 ^ 32 :=
  ⟨16#32, { idle 1 0x80000000#32 with data := [0xFFFFFFFFFFFFFFFFFFFFFFFFFFFFFFFF#128] }, by decide⟩

theorem waiting_scratch_bounded : UpdateScratch.bounded { a := 137, b := 832, n := 17, p := 16 } :=
  ⟨by decide, by decide⟩

theorem witness_RangeKept : ∃ s t : State,
    s.inv ∧ s.sumsBounded ∧ ¬ s.writesOutOfRange ∧ step s = .next t ∧ s.progress ≠ none := by
  refine ⟨waiting, waiting, ⟨by decide, ?_⟩, ⟨⟨by decide, by decide⟩, ?_⟩, ?_, next_of_after (by decide), by decide⟩
  · intro g hg
    cases hg
    exact ⟨rfl, waiting_scratch_wf⟩
  · intro u hu
    cases hu
    exact waiting_scratch_bounded
  · rintro ⟨hp, -⟩
    cases hp

theorem witness_Program : ∃ (is : List Instr) (s : State) (behind : List CmdWord),
    (∀ i ∈ is, i.wf = true) ∧ s.f = false ∧ s.progress = none ∧ s.cmd = is.map encode ++ behind ∧
    beatsOf is ≤ s.data.length ∧ hasRoomFor Config.rspDepth s.rsp (readsOf is) = true :=
  ⟨[.init, .wr .s1 1, .update 3, .rd .sum],
    { idle 1 0 with
      cmd := [.init, .wr .s1 1, .update 3, .rd .sum].map encode ++ [0x0500000000000000#64]
      data := [0x636261] },
    [0x0500000000000000#64], by decide⟩

theorem witness_Call : ∃ (v1 v2 : Word) (bytes : List Byte) (s : State),
    v1.toNat < 65521 ∧ v2.toNat < 65521 ∧ bytes.length < 2 ^ 32 ∧ s.f = false ∧ s.progress = none ∧
    hasRoomFor Config.rspDepth s.rsp 2 = true ∧ bytes ≠ [] :=
  ⟨405#32, 986#32, [0x70, 0x65], idle 1 0, by decide⟩

end Sys2Proof.Tests
end

section
/-! SUPPORT. UPDATE's beats against the pseudocode of its three regimes (41_update R126 to R132), and the pseudocode
against the reference recurrence (R137). -/

namespace Sys2Proof.Machine

/-! ## The pseudocode with its beats at hand -/

theorem ref_inRange {q : Pair} (h : inRange q) (xs : List Byte) : inRange (ref q xs) := by
  induction xs generalizing q with
  | nil => exact h
  | cons x xs ih => exact ih (stepR_inRange q x)

/-- `k` groups are the unreduced steps over the bytes of the first `k` beats. -/
theorem remGroups_eq_some (k : Nat) (q : Pair) {d : List Beat} (h : k ≤ d.length) :
    remGroups k q d = some ((bufferOf (16 * k) d).foldl stepU q, d.drop k) := by
  induction k generalizing q d with
  | zero => rfl
  | succ k ih =>
    cases d with
    | nil => simp at h
    | cons v d =>
      have hb : bufferOf (16 * (k + 1)) (v :: d) = lanes v 16 ++ bufferOf (16 * k) d := by
        rw [show 16 * (k + 1) = 16 * 1 + 16 * k by omega, bufferOf_add, bufferOf_short (by decide)]
        rfl
      rw [remGroups, ih _ (by simpa using h), hb, List.foldl_append]
      rfl

theorem blocks_succ (k : Nat) (q : Pair) (d : List Beat) :
    blocks (k + 1) q d = (remGroups 347 q d).bind fun r => blocks k (reduce r.1) r.2 := by
  simp only [blocks, Config.groupsPerBlock]
  cases remGroups 347 q d <;> rfl

/-- From a valid pair the blocks give the reference result of their bytes: no sum of a block wraps (R136). -/
theorem blocks_eq_ref (k : Nat) {q : Pair} (hq : inRange q) {d : List Beat} (h : 347 * k ≤ d.length) :
    blocks k q d = some (ref q (bufferOf (5552 * k) d), d.drop (347 * k)) := by
  induction k generalizing q d with
  | zero => rfl
  | succ k ih =>
    have hlen : (bufferOf 5552 d).length = 5552 := bufferOf_length (by omega)
    have hb : bufferOf (5552 * (k + 1)) d = bufferOf 5552 d ++ bufferOf (5552 * k) (d.drop 347) := by
      rw [show 5552 * (k + 1) = 16 * 347 + 5552 * k by omega, bufferOf_add]
    rw [blocks_succ, remGroups_eq_some 347 q (by omega), Option.bind_some,
      reduce_foldl_stepU _ q hq hlen.le, ih (ref_inRange hq _) (by rw [List.length_drop]; omega),
      ← ref_append, ← hb, List.drop_drop, show 347 + 347 * k = 347 * (k + 1) by omega]

/-- The tail takes one beat exactly where a byte is left, and ends with the reduction. -/
theorem tailAndFinal_eq_some {t : Nat} (ht : t < 16) (q : Pair) {d : List Beat} (h : beatsNeeded t ≤ d.length) :
    tailAndFinal t q d = some (reduce ((bufferOf t d).foldl stepU q), d.drop (beatsNeeded t)) := by
  by_cases h0 : t = 0
  · subst h0
    rfl
  · have hb : beatsNeeded t = 1 := by unfold beatsNeeded; omega
    cases d with
    | nil => simp [hb] at h
    | cons v d => rw [tailAndFinal, if_neg h0, bufferOf_short ht.le, hb]; rfl

/-- What follows the blocks is less than a block, so its one reduction at the end is enough. -/
theorem remGroups_tailAndFinal_eq_ref {g t : Nat} (ht : t < 16) (hl : 16 * g + t ≤ 5552) {q : Pair} (hq : inRange q)
    {d : List Beat} (h : g + beatsNeeded t ≤ d.length) :
    ((remGroups g q d).bind fun r => tailAndFinal t r.1 r.2) =
      some (ref q (bufferOf (16 * g + t) d), d.drop (g + beatsNeeded t)) := by
  have hlen : (bufferOf (16 * g + t) d).length ≤ 5552 := by
    unfold bufferOf
    exact (List.length_take_le _ _).trans hl
  rw [remGroups_eq_some g q (by omega), Option.bind_some,
    tailAndFinal_eq_some ht _ (by rw [List.length_drop]; omega), ← List.foldl_append, ← bufferOf_add,
    reduce_foldl_stepU _ q hq hlen, List.drop_drop]

theorem longRegime_eq_bind (n : Nat) (q : Pair) (d : List Beat) :
    longRegime n q d = (blocks (n / 5552) q d).bind fun r =>
      (remGroups (n % 5552 / 16) r.1 r.2).bind fun r => tailAndFinal (n % 16) r.1 r.2 := by
  simp only [longRegime, Config.blockSize, Config.groupSize]
  cases blocks (n / 5552) q d with
  | none => rfl
  | some r =>
    dsimp only [Option.bind_some]
    cases remGroups (n % 5552 / 16) r.1 r.2 <;> rfl

theorem longRegime_eq_ref (n : Nat) {q : Pair} (hq : inRange q) {d : List Beat} (h : beatsNeeded n ≤ d.length) :
    longRegime n q d = some (ref q (bufferOf n d), d.drop (beatsNeeded n)) := by
  have hn : 16 * (347 * (n / 5552)) + (16 * (n % 5552 / 16) + n % 16) = n := by omega
  have hbeats : 347 * (n / 5552) + (n % 5552 / 16 + beatsNeeded (n % 16)) = beatsNeeded n := by
    unfold beatsNeeded
    omega
  have hb : bufferOf n d = bufferOf (5552 * (n / 5552)) d ++
      bufferOf (16 * (n % 5552 / 16) + n % 16) (d.drop (347 * (n / 5552))) := by
    rw [show 5552 * (n / 5552) = 16 * (347 * (n / 5552)) by omega, ← bufferOf_add, hn]
  rw [longRegime_eq_bind, blocks_eq_ref _ hq (by omega), Option.bind_some,
    remGroups_tailAndFinal_eq_ref (by omega) (by omega) (ref_inRange hq _) (by rw [List.length_drop]; omega),
    ← ref_append, ← hb, List.drop_drop, hbeats]

theorem shortRegime_eq_ref {n : Nat} (h0 : 0 < n) (h16 : n < 16) (q : Pair) {d : List Beat}
    (h : beatsNeeded n ≤ d.length) :
    shortRegime n q d = some (ref q (bufferOf n d), d.drop (beatsNeeded n)) := by
  have hb : beatsNeeded n = 1 := by unfold beatsNeeded; omega
  cases d with
  | nil => simp [hb] at h
  | cons v d => rw [shortRegime, bufferOf_short h16.le, hb]; rfl

theorem updateRegimes_of_short {n : Nat} (h0 : 0 < n) (h16 : n < 16) (q : Pair) (d : List Beat) :
    updateRegimes n q d = shortRegime n q d := by
  rw [updateRegimes, if_neg (by omega)]
  exact if_pos h16

theorem updateRegimes_of_long {n : Nat} (h16 : 16 ≤ n) (q : Pair) (d : List Beat) :
    updateRegimes n q d = longRegime n q d := by
  rw [updateRegimes, if_neg (by omega)]
  exact if_neg (Nat.not_lt.mpr h16)

/-- From a valid pair the three regimes give the reference result of the buffer (R137). -/
theorem updateRegimes_eq_ref {n : Nat} (h0 : 0 < n) {q : Pair} (hq : inRange q) {d : List Beat}
    (h : beatsNeeded n ≤ d.length) :
    updateRegimes n q d = some (ref q (bufferOf n d), d.drop (beatsNeeded n)) := by
  by_cases h16 : n < 16
  · rw [updateRegimes_of_short h0 h16, shortRegime_eq_ref h0 h16 q h]
  · rw [updateRegimes_of_long (by omega), longRegime_eq_ref n hq h]

/-! ## The machine's beats are the pseudocode's -/

/-- The scratch of an UPDATE of length `n` that holds the pair `q` after `p` bytes. -/
def scratchAt (n : Word) (q : Pair) (p : Nat) : UpdateScratch := { a := q.1, b := q.2, n := n, p := BitVec.ofNat 32 p }

/-- The pair and the beats that the machine's UPDATE leaves when it goes on from `scratchAt n q p`, none where a beat is
missing: what the pseudocode answers, for the machine. -/
def outcomeFrom (n : Word) (q : Pair) (p : Nat) (d : List Beat) : Option (Pair × List Beat) :=
  let r := takeBeats (scratchAt n q p) d
  if r.1.isDone then some (finalPair r.1, r.2) else none

theorem startUpdate_eq_scratchAt (n : Word) (s : State) : startUpdate n s = scratchAt n (s.s1, s.s2) 0 := rfl

section
variable {n : Word} {p : Nat}

theorem scratchAt_p_toNat (h : p ≤ n.toNat) (q : Pair) : (scratchAt n q p).p.toNat = p := by
  have := n.isLt
  simp only [scratchAt, BitVec.toNat_ofNat]
  omega

theorem scratchAt_not_isDone (h : p < n.toNat) (q : Pair) : (scratchAt n q p).isDone = false := by
  rw [Bool.eq_false_iff, ne_eq, isDone_iff, scratchAt_p_toNat h.le]
  exact Nat.not_le.mpr h

theorem scratchAt_length_isDone (q : Pair) : (scratchAt n q n.toNat).isDone = true :=
  (isDone_iff _).mpr (scratchAt_p_toNat le_rfl q).ge

theorem outcomeFrom_nil (h : p < n.toNat) (q : Pair) : outcomeFrom n q p [] = none := by
  simp [outcomeFrom, scratchAt_not_isDone h]

/-- A beat that leads to `scratchAt n q' p'` is a step of the run. -/
theorem outcomeFrom_cons (h : p < n.toNat) {q q' : Pair} {p' : Nat} {v : Beat}
    (hv : takeBeat (scratchAt n q p) v = scratchAt n q' p') (d : List Beat) :
    outcomeFrom n q p (v :: d) = outcomeFrom n q' p' d := by
  rw [outcomeFrom, takeBeats_cons (scratchAt_not_isDone h q), hv]
  rfl

theorem outcomeFrom_length (q : Pair) (d : List Beat) :
    outcomeFrom n q n.toNat d = some (finalPair (scratchAt n q n.toNat), d) := by
  rw [outcomeFrom, takeBeats_done (scratchAt_length_isDone q)]
  exact if_pos (scratchAt_length_isDone q)

theorem finalPair_scratchAt_of_short (h : n.toNat < 16) (q : Pair) : finalPair (scratchAt n q p) = q :=
  if_pos ((isShort_iff _).mpr h)

theorem finalPair_scratchAt_of_long (h : 16 ≤ n.toNat) (q : Pair) : finalPair (scratchAt n q p) = reduce q :=
  if_neg (by rw [isShort_iff]; exact Nat.not_lt.mpr h)

/-- The pair after the full beat that brings the count to `p`: a block ends at a multiple of 5552 (R130, R131). -/
def reduceAtBlockEnd (p : Nat) (q : Pair) : Pair := if p % 5552 = 0 then reduce q else q

theorem takeBeat_scratchAt_group (h16 : 16 ≤ n.toNat) (h : p + 16 ≤ n.toNat) (q : Pair) (v : Beat) :
    takeBeat (scratchAt n q p) v = scratchAt n (reduceAtBlockEnd (p + 16) (group q v)) (p + 16) := by
  have hp := scratchAt_p_toNat (show p ≤ n.toNat by omega) q
  have hnext : (scratchAt n q p).p + BitVec.ofNat 32 16 = BitVec.ofNat 32 (p + 16) := (BitVec.ofNat_add p 16).symm
  have hcount : (BitVec.ofNat 32 (p + 16)).toNat = p + 16 := scratchAt_p_toNat h q
  rw [takeBeat_of_group h16 (by rw [hp]; exact h)]
  simp only [takeGroup, Config.groupSize, Config.blockSize, hnext, hcount]
  rfl

theorem takeBeat_scratchAt_tail (h16 : 16 ≤ n.toNat) (hp : p ≤ n.toNat) (h : n.toNat < p + 16) (q : Pair)
    (v : Beat) :
    takeBeat (scratchAt n q p) v = scratchAt n ((lanes v (n.toNat % 16)).foldl stepU q) n.toNat := by
  rw [takeBeat_of_tail h16 (by rw [scratchAt_p_toNat hp]; exact h)]
  simp [takeTail, scratchAt, Config.groupSize]

theorem takeBeat_scratchAt_short (h16 : n.toNat < 16) (q : Pair) (v : Beat) :
    takeBeat (scratchAt n q p) v = scratchAt n ((lanes v n.toNat).foldl stepR q) n.toNat := by
  rw [takeBeat_of_short h16]
  simp [takeShort, scratchAt]

/-- Groups up to the end of a block at most: the machine reduces where they end the block. -/
theorem outcomeFrom_remGroups (h16 : 16 ≤ n.toNat) {k : Nat} (h0 : 1 ≤ k) (hk : p % 5552 + 16 * k ≤ 5552)
    (hn : p + 16 * k ≤ n.toNat) (q : Pair) (d : List Beat) :
    outcomeFrom n q p d = (remGroups k q d).bind fun r =>
      outcomeFrom n (reduceAtBlockEnd (p + 16 * k) r.1) (p + 16 * k) r.2 := by
  induction k, h0 using Nat.le_induction generalizing p q d with
  | base =>
    cases d with
    | nil => exact outcomeFrom_nil (by omega) q
    | cons v d => exact outcomeFrom_cons (by omega) (takeBeat_scratchAt_group h16 (by omega) q v) d
  | succ k h0 ih =>
    cases d with
    | nil => exact outcomeFrom_nil (by omega) q
    | cons v d =>
      have hr : reduceAtBlockEnd (p + 16) (group q v) = group q v := if_neg (by omega)
      rw [outcomeFrom_cons (by omega) (takeBeat_scratchAt_group h16 (by omega) q v), hr, ih (by omega) (by omega),
        show p + 16 + 16 * k = p + 16 * (k + 1) by omega]
      rfl

theorem outcomeFrom_blocks (h16 : 16 ≤ n.toNat) (k : Nat) (hp : p % 5552 = 0) (hn : p + 5552 * k ≤ n.toNat)
    (q : Pair) (d : List Beat) :
    outcomeFrom n q p d = (blocks k q d).bind fun r => outcomeFrom n r.1 (p + 5552 * k) r.2 := by
  induction k generalizing p q d with
  | zero => rfl
  | succ k ih =>
    -- linear, but too much for `omega`, which recurses along the coefficient
    have hblock : p + 16 * 347 ≤ n.toNat :=
      (Nat.add_le_add_left (Nat.le_mul_of_pos_right 5552 k.succ_pos) p).trans hn
    rw [outcomeFrom_remGroups h16 (show 1 ≤ 347 by decide) (by rw [hp]) hblock, blocks_succ, Option.bind_assoc]
    congr
    funext r
    have hr : reduceAtBlockEnd (p + 16 * 347) r.1 = reduce r.1 := if_pos (by omega)
    rw [hr, ih (by omega) (by omega), show p + 5552 + 5552 * k = p + 5552 * (k + 1) by omega]

theorem outcomeFrom_tailAndFinal (h16 : 16 ≤ n.toNat) (hp : p + n.toNat % 16 = n.toNat) (q : Pair) (d : List Beat) :
    outcomeFrom n q p d = tailAndFinal (n.toNat % 16) q d := by
  by_cases ht : n.toNat % 16 = 0
  · obtain rfl : p = n.toNat := by omega
    rw [outcomeFrom_length, finalPair_scratchAt_of_long h16, ht]
    rfl
  · cases d with
    | nil => rw [outcomeFrom_nil (by omega), tailAndFinal, if_neg ht]
    | cons v d =>
      rw [tailAndFinal, if_neg ht, outcomeFrom_cons (by omega) (takeBeat_scratchAt_tail h16 (by omega) (by omega) q v),
        outcomeFrom_length, finalPair_scratchAt_of_long h16]

theorem outcomeFrom_zero_of_long (h16 : 16 ≤ n.toNat) (q : Pair) (d : List Beat) :
    outcomeFrom n q 0 d = longRegime n.toNat q d := by
  rw [longRegime_eq_bind, outcomeFrom_blocks h16 (n.toNat / 5552) rfl (by omega)]
  congr
  funext r
  by_cases hg : n.toNat % 5552 / 16 = 0
  · rw [hg, outcomeFrom_tailAndFinal h16 (by omega)]
    rfl
  · rw [outcomeFrom_remGroups h16 (Nat.pos_of_ne_zero hg) (by omega) (by omega)]
    congr
    funext r'
    have hr : reduceAtBlockEnd (0 + 5552 * (n.toNat / 5552) + 16 * (n.toNat % 5552 / 16)) r'.1 = r'.1 :=
      if_neg (by omega)
    rw [hr, outcomeFrom_tailAndFinal h16 (by omega)]

theorem outcomeFrom_zero_of_short (h0 : 0 < n.toNat) (h16 : n.toNat < 16) (q : Pair) (d : List Beat) :
    outcomeFrom n q 0 d = shortRegime n.toNat q d := by
  cases d with
  | nil => exact outcomeFrom_nil h0 q
  | cons v d =>
    rw [outcomeFrom_cons h0 (takeBeat_scratchAt_short h16 q v), outcomeFrom_length, finalPair_scratchAt_of_short h16]
    rfl

/-- The machine's beats compute the pseudocode of the three regimes, from every pair and whether or not beats are
missing. -/
theorem outcomeFrom_zero_eq_updateRegimes (h0 : 0 < n.toNat) (q : Pair) (d : List Beat) :
    outcomeFrom n q 0 d = updateRegimes n.toNat q d := by
  by_cases h16 : n.toNat < 16
  · rw [outcomeFrom_zero_of_short h0 h16, updateRegimes_of_short h0 h16]
  · rw [outcomeFrom_zero_of_long (by omega), updateRegimes_of_long (by omega)]

end

/-! ## UPDATE with its beats at hand, under either reading of `OOR_MODEL` -/

/-- The pair that an UPDATE of one byte or more leaves when its beats are there. -/
def updatePair (m : OorModel) (n : Word) (s : State) : Pair :=
  finalUnder m (s.s1, s.s2) (takeBeatsBy (takeUnder m (s.s1, s.s2)) (startUpdate n s) s.data).1

theorem updatePair_closed {m : OorModel} {s : State} (h : valueIsOpen m (s.s1, s.s2) = false) (n : Word) :
    updatePair m n s = finalPair (takeBeats (startUpdate n s) s.data).1 := by
  rw [updatePair, takeUnder_closed h, finalUnder_closed h]
  rfl

theorem updateUnder_zero (m : OorModel) (s : State) :
    updateUnder m 0#32 s = .next { s with s1 := 1#32, s2 := 0#32 } := rfl

section
variable {n : Word} {s : State} (hn : n ≠ 0#32) (hd : beatsNeeded n.toNat ≤ s.data.length)
include hn hd

/-- With its beats there an UPDATE finishes, takes exactly them, and leaves a pair below 65521. -/
theorem takeBeats_startUpdate_of_beats :
    (takeBeats (startUpdate n s) s.data).1.isDone = true ∧
    (takeBeats (startUpdate n s) s.data).2 = s.data.drop (beatsNeeded n.toNat) ∧
    inRange (finalPair (takeBeats (startUpdate n s) s.data).1) := by
  obtain ⟨hdone, -, hdrop, hr⟩ | ⟨-, hlt, -⟩ := takeBeats_cases (startUpdate_wf hn s) s.data
  · exact ⟨hdone, hdrop, hr⟩
  · exact absurd hd (Nat.not_le.mpr hlt)

theorem updateUnder_of_beats (m : OorModel) :
    updateUnder m n s = .next { s with
      s1 := (updatePair m n s).1
      s2 := (updatePair m n s).2
      data := s.data.drop (beatsNeeded n.toNat) } := by
  obtain ⟨hdone, hdrop, -⟩ := takeBeats_startUpdate_of_beats hn hd
  rw [updateUnder, if_neg hn]
  obtain ⟨-, hrun⟩ | ⟨hwait, -⟩ := runUpdate_under_cases m (startUpdate n s) s
  · rw [hrun, hdrop]
    rfl
  · rw [hdone] at hwait
    contradiction

theorem updatePair_inRange (m : OorModel) : inRange (updatePair m n s) := by
  obtain ⟨-, -, hr⟩ := takeBeats_startUpdate_of_beats hn hd
  apply finalUnder_inRange
  intro hclosed
  rw [takeUnder_closed hclosed]
  exact hr

theorem updateRegimes_eq_updatePair {m : OorModel} (h : valueIsOpen m (s.s1, s.s2) = false) :
    updateRegimes n.toNat (s.s1, s.s2) s.data = some (updatePair m n s, s.data.drop (beatsNeeded n.toNat)) := by
  obtain ⟨hdone, hdrop, -⟩ := takeBeats_startUpdate_of_beats hn hd
  have hpos : 0 < n.toNat := (startUpdate_wf hn s).1
  rw [← outcomeFrom_zero_eq_updateRegimes hpos, outcomeFrom, ← startUpdate_eq_scratchAt,
    updatePair_closed h, ← hdrop]
  exact if_pos hdone

/-- Where the value is open only its range is claimed; where it is not, the regimes give it, and from a valid start the
reference recurrence does. -/
theorem updatePair_resultAllowed (m : OorModel) :
    resultAllowed m n.toNat (s.s1, s.s2) s.data (updatePair m n s) := by
  have hpos : 0 < n.toNat := (startUpdate_wf hn s).1
  cases m with
  | wrap32 =>
    show (updateRegimes _ _ _).map Prod.fst = _
    rw [updateRegimes_eq_updatePair hn hd (valueIsOpen_wrap32 _)]
    rfl
  | anyInRange =>
    refine ⟨updatePair_inRange hn hd _, fun h0 => absurd h0 hpos.ne', fun _ hq => ?_⟩
    have h := updateRegimes_eq_updatePair hn hd (valueIsOpen_valid .anyInRange hq)
    rw [updateRegimes_eq_ref hpos hq hd] at h
    injection h with h
    exact (congrArg Prod.fst h).symm

end

theorem inRange_identity : inRange (1#32, 0#32) := ⟨by decide, by decide⟩

theorem resultAllowed_zero (m : OorModel) (q : Pair) (d : List Beat) : resultAllowed m 0 q d (1#32, 0#32) := by
  cases m with
  | wrap32 => rfl
  | anyInRange => exact ⟨inRange_identity, fun _ => rfl, fun h => absurd h (Nat.lt_irrefl 0)⟩

/-- From a valid state an UPDATE does not depend on `OOR_MODEL`, whether or not its beats are there. -/
theorem updateUnder_of_valid (m : OorModel) (n : Word) {s : State} (h : s.valid) :
    updateUnder m n s = exec (.update n) s := by
  show updateUnder m n s = updateUnder Config.oorModel n s
  rw [updateUnder, updateUnder, runUpdate_closed (valueIsOpen_valid m h), runUpdate_default]

/-- Settles O49: the machine's beats compute the three regimes, and the regimes the reference recurrence from a valid
start. -/
theorem updateFollowsItsOorModel : Obligations.UpdateFollowsItsOorModel := by
  intro m n s hd
  by_cases hn : n = 0#32
  · subst hn
    exact ⟨⟨(1#32, 0#32), updateUnder_zero m s, resultAllowed_zero m _ _, inRange_identity⟩, fun _ => rfl⟩
  · refine ⟨⟨updatePair m n s, updateUnder_of_beats hn hd m, updatePair_resultAllowed hn hd m,
      updatePair_inRange hn hd m⟩, ?_⟩
    rintro (hv | h0)
    · exact updateUnder_of_valid m n hv
    · exact absurd h0 hn

end Sys2Proof.Machine
end

section
/-! SUPPORT. What a step keeps (10_state R23, R25, R27, R30, R34): the fault latch, the order of the channels, the
invariant, and the bounds of 41_update R136; and the two views `SUM` and `SR`. -/

namespace Sys2Proof

theorem regNamed_writable {n : BitVec 8} (h : n.toNat ≤ 1) : (regNamed n).writable = true := by
  revert n
  decide

/-- A legal word is a well-formed command: the decoder refuses `WR` of a register above 1. -/
theorem wf_of_decode {w : CmdWord} {i : Instr} (h : decode w = .command i) : i.wf = true := by
  dsimp only [decode] at h
  split_ifs at h with _ hreg _ _ _ _ hinit hwr hrd <;> cases h
  · rfl
  · exact regNamed_writable (Nat.le_of_not_lt fun hlt => hreg ⟨hwr, hlt⟩)
  · rfl
  · rfl

namespace Machine

/-! ## What the shared operations leave unchanged -/

section
variable (depth : Option Nat) (r : Reg) (s : State)

@[simp] theorem respond_s1 : (respond depth r s).s1 = s.s1 := by unfold respond; split <;> rfl
@[simp] theorem respond_s2 : (respond depth r s).s2 = s.s2 := by unfold respond; split <;> rfl
@[simp] theorem respond_f : (respond depth r s).f = s.f := by unfold respond; split <;> rfl
@[simp] theorem respond_cause : (respond depth r s).cause = s.cause := by unfold respond; split <;> rfl
@[simp] theorem respond_cmd : (respond depth r s).cmd = s.cmd := by unfold respond; split <;> rfl
@[simp] theorem respond_data : (respond depth r s).data = s.data := by unfold respond; split <;> rfl

theorem respond_progress : (respond depth r s).progress = s.progress ∨ (respond depth r s).progress = some (.read r) := by
  unfold respond
  split
  · exact .inl rfl
  · exact .inr rfl

theorem respond_rsp : (respond depth r s).rsp = s.rsp ∨ ∃ v, (respond depth r s).rsp = s.rsp ++ [v] := by
  unfold respond
  split
  · exact .inr ⟨_, rfl⟩
  · exact .inl rfl

end

section
variable (m : OorModel) (u : UpdateScratch) (s : State)

@[simp] theorem runUpdate_f : (runUpdate m u s).f = s.f := by unfold runUpdate; dsimp only; split <;> rfl
@[simp] theorem runUpdate_cause : (runUpdate m u s).cause = s.cause := by unfold runUpdate; dsimp only; split <;> rfl
@[simp] theorem runUpdate_cmd : (runUpdate m u s).cmd = s.cmd := by unfold runUpdate; dsimp only; split <;> rfl
@[simp] theorem runUpdate_rsp : (runUpdate m u s).rsp = s.rsp := by unfold runUpdate; dsimp only; split <;> rfl

end

/-- Beats are taken from the front only (20_memory R61). -/
theorem takeBeats_snd_eq_drop (u : UpdateScratch) (d : List Beat) : ∃ k, (takeBeats u d).2 = d.drop k := by
  induction d generalizing u with
  | nil => exact ⟨0, rfl⟩
  | cons v d ih =>
    cases h : u.isDone
    · obtain ⟨k, hk⟩ := ih (takeBeat u v)
      exact ⟨k + 1, by rw [takeBeats_cons h, hk, List.drop_succ_cons]⟩
    · exact ⟨0, by rw [takeBeats_done h]; rfl⟩

theorem runUpdate_data (u : UpdateScratch) (s : State) :
    (runUpdate Config.oorModel u s).data = (takeBeats u s.data).2 := by
  obtain ⟨-, h⟩ | ⟨-, h⟩ := runUpdate_cases u s <;> rw [h]

/-- An UPDATE ends, or waits with a well-formed scratch. -/
theorem runUpdate_progress {u : UpdateScratch} (hu : u.wf) (s : State) :
    (runUpdate Config.oorModel u s).progress = s.progress ∨
    ∃ x, (runUpdate Config.oorModel u s).progress = some (.update x) ∧ x.wf := by
  obtain ⟨-, hrun⟩ | ⟨hwait, hrun⟩ := runUpdate_cases u s
  · exact .inl (by rw [hrun])
  · obtain ⟨hdone, -⟩ | ⟨hw, -⟩ := takeBeats_cases hu s.data
    · rw [hdone] at hwait
      contradiction
    · exact .inr ⟨_, by rw [hrun], hw⟩

/-! ## The channels and the fault latch -/

/-- What every execution of a command, once its word is taken, does to the queues and the fault latch: it takes beats
from the front and sends at most one response; it takes no further word and keeps the latch. -/
structure TakesInOrder (s t : State) : Prop where
  latch : t.f = s.f ∧ t.cause = s.cause
  cmd : t.cmd = s.cmd
  data : ∃ k, t.data = s.data.drop k
  rsp : t.rsp = s.rsp ∨ ∃ v, t.rsp = s.rsp ++ [v]

theorem TakesInOrder.of_registers (s : State) (v1 v2 : Word) : TakesInOrder s { s with s1 := v1, s2 := v2 } :=
  ⟨⟨rfl, rfl⟩, rfl, ⟨0, rfl⟩, .inl rfl⟩

theorem respond_takesInOrder (depth : Option Nat) (r : Reg) (s : State) : TakesInOrder s (respond depth r s) where
  latch := ⟨respond_f .., respond_cause ..⟩
  cmd := respond_cmd ..
  data := ⟨0, respond_data ..⟩
  rsp := respond_rsp ..

theorem runUpdate_takesInOrder (u : UpdateScratch) (s : State) : TakesInOrder s (runUpdate Config.oorModel u s) where
  latch := ⟨runUpdate_f .., runUpdate_cause ..⟩
  cmd := runUpdate_cmd ..
  data := by rw [runUpdate_data]; exact takeBeats_snd_eq_drop u s.data
  rsp := .inl (runUpdate_rsp ..)

theorem resume_takesInOrder (g : Progress) (s : State) : TakesInOrder s (resume g s) := by
  cases g with
  | read r =>
    obtain ⟨latch, cmd, data, rsp⟩ := respond_takesInOrder Config.rspDepth r { s with progress := none }
    exact ⟨latch, cmd, data, rsp⟩
  | update u =>
    obtain ⟨latch, cmd, data, rsp⟩ := runUpdate_takesInOrder u { s with progress := none }
    exact ⟨latch, cmd, data, rsp⟩

theorem exec_takesInOrder {i : Instr} {s t : State} (hw : i.wf = true) (h : exec i s = .next t) : TakesInOrder s t := by
  obtain ⟨-, rfl⟩ | ⟨v, -, rfl⟩ | ⟨v, -, rfl⟩ | ⟨r, -, rfl⟩ | ⟨-, rfl⟩ | ⟨n, -, -, rfl⟩ := exec_cases hw h
  · exact .of_registers ..
  · exact .of_registers ..
  · exact .of_registers ..
  · exact respond_takesInOrder ..
  · exact .of_registers ..
  · exact runUpdate_takesInOrder ..

/-- Settles O10: of the six things a step can do, only taking an illegal word in the running state sets the latch. -/
theorem onlyAnIllegalWordChangesTheLatch : Obligations.OnlyAnIllegalWordChangesTheLatch := by
  intro s t h
  obtain ⟨g, -, rfl⟩ | ⟨-, -, rfl⟩ | ⟨w, rest, -, -, -, -, rfl⟩ | ⟨w, rest, -, -, -, -, rfl⟩ |
    ⟨w, rest, c, hp, hc, hf, hd, rfl⟩ | ⟨w, rest, i, -, -, -, hd, he⟩ := step_cases h
  · exact .inl (resume_takesInOrder g s).latch
  · exact .inl ⟨rfl, rfl⟩
  · exact .inl (respond_takesInOrder ..).latch
  · exact .inl ⟨rfl, rfl⟩
  · exact .inr ⟨hf, hp, rfl, w, c, hc, hd, rfl⟩
  · exact .inl (exec_takesInOrder (wf_of_decode hd) he).latch

/-- A step goes on with the command in progress and takes no word, waits with nothing changed, or takes the oldest
word. -/
theorem step_takesInOrder {s t : State} (h : step s = .next t) :
    TakesInOrder s t ∨
    s.progress = none ∧ ∃ w rest, s.cmd = w :: rest ∧ t.cmd = rest ∧
      (∃ k, t.data = s.data.drop k) ∧ (t.rsp = s.rsp ∨ ∃ v, t.rsp = s.rsp ++ [v]) := by
  obtain ⟨g, -, rfl⟩ | ⟨-, -, rfl⟩ | ⟨w, rest, hp, hc, -, -, rfl⟩ | ⟨w, rest, hp, hc, -, -, rfl⟩ |
    ⟨w, rest, c, hp, hc, -, -, rfl⟩ | ⟨w, rest, i, hp, hc, -, hd, he⟩ := step_cases h
  · exact .inl (resume_takesInOrder g s)
  · exact .inl (.of_registers t t.s1 t.s2)
  · obtain ⟨-, cmd, data, rsp⟩ := respond_takesInOrder Config.rspDepth .sr { s with cmd := rest }
    exact .inr ⟨hp, w, rest, hc, cmd, data, rsp⟩
  · exact .inr ⟨hp, w, rest, hc, rfl, ⟨0, rfl⟩, .inl rfl⟩
  · exact .inr ⟨hp, w, rest, hc, rfl, ⟨0, rfl⟩, .inl rfl⟩
  · obtain ⟨-, cmd, data, rsp⟩ := exec_takesInOrder (wf_of_decode hd) he
    exact .inr ⟨hp, w, rest, hc, cmd, data, rsp⟩

/-- Settles O13: a step takes no word, or the oldest one with no command in progress. -/
theorem channelsAreFifo : Obligations.ChannelsAreFifo := by
  intro s t h
  obtain ⟨-, cmd, data, rsp⟩ | ⟨hp, w, rest, hc, hrest, data, rsp⟩ := step_takesInOrder h
  · exact ⟨.inl cmd, fun _ => cmd, data, rsp⟩
  · exact ⟨.inr ⟨w, by rw [hrest, hc]⟩, fun hne => absurd hp hne, data, rsp⟩

/-! ## The invariant -/

/-- Settles O16: every field of `State.reset`, and the two views computed from them. -/
theorem resetStateIsAsStated : Obligations.ResetStateIsAsStated := by
  refine ⟨rfl, rfl, ?_, rfl, rfl, ?_, rfl, rfl, rfl, rfl⟩ <;> decide

/-- Settles O43: `F` and `CAUSE` are 0, no command is in progress, and `(1, 0)` is valid. -/
theorem resetMeetsTheInvariants : Obligations.ResetMeetsTheInvariants :=
  ⟨⟨by decide, fun _ hg => nomatch hg⟩, inRange_identity, fun _ hu => nomatch hu⟩

theorem respond_fits {depth : Option Nat} {r : Reg} {s : State} {g : Progress} (hp : s.progress = none)
    (hr : s.f = true → r = .sr) (hg : (respond depth r s).progress = some g) : g.fits s.f := by
  obtain h | h := respond_progress depth r s <;> rw [h] at hg
  · rw [hp] at hg
    contradiction
  · cases hg
    exact hr

theorem runUpdate_fits {u : UpdateScratch} {s : State} {g : Progress} (hp : s.progress = none) (hu : u.wf)
    (hf : s.f = false) (hg : (runUpdate Config.oorModel u s).progress = some g) : g.fits s.f := by
  obtain h | ⟨x, h, hx⟩ := runUpdate_progress hu s <;> rw [h] at hg
  · rw [hp] at hg
    contradiction
  · cases hg
    exact ⟨hf, hx⟩

theorem resume_fits {g g' : Progress} {s : State} (hfit : g.fits s.f) (hg : (resume g s).progress = some g') :
    g'.fits s.f := by
  cases g with
  | read r => exact respond_fits (s := { s with progress := none }) rfl hfit hg
  | update u => exact runUpdate_fits (s := { s with progress := none }) rfl hfit.2 hfit.1 hg

theorem exec_fits {i : Instr} {s t : State} {g : Progress} (hw : i.wf = true) (h : exec i s = .next t)
    (hp : s.progress = none) (hf : s.f = false) (hg : t.progress = some g) : g.fits s.f := by
  obtain ⟨-, rfl⟩ | ⟨v, -, rfl⟩ | ⟨v, -, rfl⟩ | ⟨r, -, rfl⟩ | ⟨-, rfl⟩ | ⟨n, hn, -, rfl⟩ := exec_cases hw h
  · exact nomatch hp.symm.trans hg
  · exact nomatch hp.symm.trans hg
  · exact nomatch hp.symm.trans hg
  · exact respond_fits hp (fun ht => nomatch hf.symm.trans ht) hg
  · exact nomatch hp.symm.trans hg
  · exact runUpdate_fits hp (startUpdate_wf hn s) hf hg

/-- A step leaves in progress only what fits the mode it began in; an illegal word, which changes the mode, is taken
with nothing in progress. -/
theorem step_progress_fits {s t : State} (hi : s.inv) (h : step s = .next t) {g : Progress}
    (hg : t.progress = some g) : g.fits t.f := by
  obtain ⟨g₀, hp, rfl⟩ | ⟨-, -, rfl⟩ | ⟨w, rest, hp, -, -, -, rfl⟩ | ⟨w, rest, hp, -, -, -, rfl⟩ |
    ⟨w, rest, c, hp, -, -, -, rfl⟩ | ⟨w, rest, i, hp, -, hf, hd, he⟩ := step_cases h
  · rw [(resume_takesInOrder g₀ s).latch.1]
    exact resume_fits (hi.2 g₀ hp) hg
  · exact hi.2 g hg
  · rw [respond_f]
    exact respond_fits (s := { s with cmd := rest }) hp (fun _ => rfl) hg
  · exact nomatch hp.symm.trans hg
  · exact nomatch hp.symm.trans hg
  · rw [(exec_takesInOrder (wf_of_decode hd) he).latch.1]
    exact exec_fits (wf_of_decode hd) he hp hf hg

/-- Settles O44: the latch changes only to `F = 1` with a cause that is not 0, and what is left in progress fits. -/
theorem everyStepKeepsTheInvariant : Obligations.EveryStepKeepsTheInvariant := by
  intro s t hi h
  refine ⟨?_, fun g hg => step_progress_fits hi h hg⟩
  obtain ⟨hf, hc⟩ | ⟨-, -, hf, w, c, -, -, hc⟩ := onlyAnIllegalWordChangesTheLatch s t h
  · rw [hf, hc]
    exact hi.1
  · simp [hf, hc, causeCode_ne_zero]

/-- The invariant speaks of no channel, so the host's actions keep it; reset establishes it. -/
theorem applyEvent_keeps_inv {e : Event} {s t : State} (hi : s.inv) (h : applyEvent e s = .next t) : t.inv := by
  cases e with
  | core => exact everyStepKeepsTheInvariant s t hi h
  | command w =>
    cases h
    unfold enterCommand
    split <;> exact hi
  | beat v =>
    cases h
    unfold enterBeat
    split <;> exact hi
  | take =>
    cases h
    exact hi
  | reset =>
    cases h
    exact resetMeetsTheInvariants.1

/-- What every event keeps, every run keeps. -/
theorem runEvents_induction {P : State → Prop} (hP : ∀ e s t, P s → applyEvent e s = .next t → P t)
    {es : List Event} {s t : State} (hs : P s) (h : runEvents es s = .next t) : P t := by
  induction es generalizing s with
  | nil =>
    cases h
    exact hs
  | cons e es ih =>
    obtain ⟨x, he, hrest⟩ := runEvents_cons h
    exact ih (hP e s x hs he) hrest

/-- Settles O45, by induction on the events. -/
theorem everyRunKeepsTheInvariant : Obligations.EveryRunKeepsTheInvariant :=
  fun _ _ _ => runEvents_induction fun _ _ _ => applyEvent_keeps_inv

/-! ## The bounds on the sums -/

/-- A group of 16 bytes adds at most this much to the sums (41_update R125, R136); a sum that wraps only gets less. -/
theorem group_le (q : Pair) (v : Beat) :
    (group q v).1.toNat ≤ q.1.toNat + 255 * 16 ∧
    2 * (group q v).2.toNat ≤ 2 * (q.2.toNat + 16 * q.1.toNat) + 255 * (16 * 17) := by
  obtain ⟨ha, hb⟩ := foldl_stepU_toNat (lanes v 16) q
  have hbytes := byteSum_le (lanes v 16)
  have hweighted := weightedSum_le (lanes v 16)
  rw [lanes_length] at hb hbytes hweighted
  rw [show group q v = (lanes v 16).foldl stepU q from rfl, ha, hb]
  omega

/-- The bounds of R136 after `m` bytes since the last reduction, of any pair. -/
def boundedAfter (m : Nat) (q : Pair) : Prop :=
  q.1.toNat ≤ 65520 + 255 * m ∧ 2 * q.2.toNat ≤ 2 * 65520 + 2 * (m * 65520) + 255 * (m * (m + 1))

theorem bounded_iff (u : UpdateScratch) : u.bounded ↔ boundedAfter (u.p.toNat % 5552) (u.a, u.b) := Iff.rfl

theorem boundedAfter_zero_iff (q : Pair) : boundedAfter 0 q ↔ inRange q := by
  unfold boundedAfter inRange Config.modulus
  omega

theorem boundedAfter_group {m : Nat} {q : Pair} (h : boundedAfter m q) (v : Beat) :
    boundedAfter (m + 16) (group q v) := by
  obtain ⟨ha, hb⟩ := h
  obtain ⟨ga, gb⟩ := group_le q v
  exact ⟨by linarith, by linarith⟩

/-- A beat that does not end the UPDATE keeps the bounds: it is a full group, reduced where it ends a block. -/
theorem takeBeat_bounded {u : UpdateScratch} (hw : u.wf) (hb : u.bounded) (v : Beat) (hw' : (takeBeat u v).wf)
    (hp : (takeBeat u v).p.toNat = u.p.toNat + 16) : (takeBeat u v).bounded := by
  obtain ⟨-, hmul, -⟩ := hw
  have hlt : u.p.toNat + 16 < u.n.toNat := by
    have := hw'.1
    rwa [takeBeat_n, hp] at this
  have hg : takeBeat u v = takeGroup u v := takeBeat_of_group (by omega) hlt.le v
  rw [hg] at hp ⊢
  rw [bounded_iff, hp]
  rw [bounded_iff] at hb
  have hpair : ((takeGroup u v).a, (takeGroup u v).b) = reduceAtBlockEnd (u.p.toNat + 16) (group (u.a, u.b) v) := by
    rw [← hp]
    rfl
  rw [hpair, reduceAtBlockEnd]
  split
  case isTrue hend =>
    rw [hend, boundedAfter_zero_iff]
    exact reduce_inRange _
  case isFalse hend =>
    rw [show (u.p.toNat + 16) % 5552 = u.p.toNat % 5552 + 16 by omega]
    exact boundedAfter_group hb v

theorem takeBeats_bounded {u : UpdateScratch} (hw : u.wf) (hb : u.bounded) {d : List Beat}
    (h : (takeBeats u d).1.isDone = false) : (takeBeats u d).1.bounded := by
  induction d generalizing u with
  | nil => exact hb
  | cons v d ih =>
    rw [takeBeats_cons (not_isDone_of_wf hw)] at h ⊢
    obtain ⟨hdone, -⟩ | ⟨hw', hp⟩ := takeBeat_wf hw v
    · rw [takeBeats_done hdone, hdone] at h
      contradiction
    · exact ih hw' (takeBeat_bounded hw hb v hw' hp) h

theorem startUpdate_bounded (n : Word) {s : State} (h : s.valid) : (startUpdate n s).bounded :=
  (boundedAfter_zero_iff _).mpr h

theorem sumsBounded_of_idle {s : State} (hv : s.valid) (hp : s.progress = none) : s.sumsBounded :=
  ⟨hv, fun _ hu => nomatch hp.symm.trans hu⟩

theorem respond_sumsBounded {depth : Option Nat} {r : Reg} {s : State} (hv : s.valid) (hp : s.progress = none) :
    (respond depth r s).sumsBounded := by
  obtain ⟨-, h⟩ | ⟨-, h⟩ := respond_cases depth r s <;> rw [h]
  · exact sumsBounded_of_idle hv hp
  · exact ⟨hv, fun _ hu => nomatch hu⟩

/-- An UPDATE that ends leaves a valid pair (R135), and one that waits has not written it yet (R133). -/
theorem runUpdate_sumsBounded {u : UpdateScratch} {s : State} (hw : u.wf) (hb : u.bounded) (hv : s.valid)
    (hp : s.progress = none) : (runUpdate Config.oorModel u s).sumsBounded := by
  obtain ⟨hdone, hrun⟩ | ⟨hwait, hrun⟩ := runUpdate_cases u s <;> rw [hrun]
  · obtain ⟨-, -, -, hr⟩ | ⟨hw', -⟩ := takeBeats_cases hw s.data
    · exact sumsBounded_of_idle hr hp
    · rw [not_isDone_of_wf hw'] at hdone
      contradiction
  · refine ⟨hv, fun x hx => ?_⟩
    cases hx
    exact takeBeats_bounded hw hb hwait

theorem exec_sumsBounded {i : Instr} {s t : State} (hi : i.wf = true) (hv : s.valid) (hp : s.progress = none)
    (hwr : ∀ r v, i = .wr r v → v.toNat < Config.modulus) (h : exec i s = .next t) : t.sumsBounded := by
  obtain ⟨-, rfl⟩ | ⟨v, rfl, rfl⟩ | ⟨v, rfl, rfl⟩ | ⟨r, -, rfl⟩ | ⟨-, rfl⟩ | ⟨n, hn, -, rfl⟩ := exec_cases hi h
  · exact sumsBounded_of_idle inRange_identity hp
  · exact sumsBounded_of_idle ⟨hwr .s1 v rfl, hv.2⟩ hp
  · exact sumsBounded_of_idle ⟨hv.1, hwr .s2 v rfl⟩ hp
  · exact respond_sumsBounded hv hp
  · exact sumsBounded_of_idle inRange_identity hp
  · exact runUpdate_sumsBounded (startUpdate_wf hn s) (startUpdate_bounded n hv) hv hp

theorem resume_sumsBounded {g : Progress} {s : State} (hi : s.inv) (hb : s.sumsBounded) (hp : s.progress = some g) :
    (resume g s).sumsBounded := by
  cases g with
  | read r => exact respond_sumsBounded hb.1 rfl
  | update u => exact runUpdate_sumsBounded (hi.2 _ hp).2 (hb.2 u hp) hb.1 rfl

/-- Settles O46: only `WR` puts a value in `S1` or `S2` that is not reduced, and between reductions the sums grow by at
most a group's bytes at a time. -/
theorem onlyAWriteBreaksTheRange : Obligations.OnlyAWriteBreaksTheRange := by
  intro s t hi hb hwr h
  obtain ⟨g, hp, rfl⟩ | ⟨-, -, rfl⟩ | ⟨w, rest, hp, -, -, -, rfl⟩ | ⟨w, rest, hp, -, -, -, rfl⟩ |
    ⟨w, rest, c, hp, -, -, -, rfl⟩ | ⟨w, rest, i, hp, hc, hf, hd, he⟩ := step_cases h
  · exact resume_sumsBounded hi hb hp
  · exact hb
  · exact respond_sumsBounded hb.1 hp
  · exact sumsBounded_of_idle hb.1 hp
  · exact sumsBounded_of_idle hb.1 hp
  · refine exec_sumsBounded (s := { s with cmd := rest }) (wf_of_decode hd) hb.1 hp (fun r v hiv => ?_) he
    subst hiv
    exact Nat.lt_of_not_le fun hle => hwr ⟨hp, hf, w, rest, r, v, hc, hd, hle⟩

/-! ## The views -/

theorem exec_rd_of_room {s : State} (h : hasRoom Config.rspDepth s.rsp = true) (r : Reg) :
    exec (.rd r) s = .next { s with rsp := s.rsp ++ [s.readReg r] } :=
  congrArg Host.Outcome.next (if_pos h)

/-- Of the ill-formed terms `WR SUM` and `WR SR` only the fault is left (10_state R26). -/
theorem exec_wr_of_not_writable {r : Reg} (h : r.writable = false) (v : Word) (s : State) :
    exec (.wr r v) s = .next (raiseFault .illegalRegister s) :=
  if_neg (by rw [h]; exact Bool.false_ne_true)

/-- Halves of 16 bits do not overlap in the packed word (00_scope R9). -/
theorem pack_toNat {p q : Word} (hp : p.toNat < 2 ^ 16) (hq : q.toNat < 2 ^ 16) :
    (pack p q).toNat = q.toNat * 65536 + p.toNat := by
  have hshift : (q <<< 16).toNat = q.toNat <<< 16 := by
    rw [BitVec.toNat_shiftLeft, Nat.shiftLeft_eq]
    omega
  rw [pack, BitVec.toNat_or, hshift, ← Nat.shiftLeft_add_eq_or_of_lt hp, Nat.shiftLeft_eq]

theorem pack_high {p q : Word} (hp : p.toNat < 2 ^ 16) (hq : q.toNat < 2 ^ 16) :
    (pack p q).extractLsb' 16 16 = q.extractLsb' 0 16 := by
  apply BitVec.eq_of_toNat_eq
  simp only [BitVec.extractLsb'_toNat, Nat.shiftRight_eq_div_pow, pack_toNat hp hq]
  omega

theorem pack_low {p q : Word} (hp : p.toNat < 2 ^ 16) (hq : q.toNat < 2 ^ 16) :
    (pack p q).extractLsb' 0 16 = p.extractLsb' 0 16 := by
  apply BitVec.eq_of_toNat_eq
  simp only [BitVec.extractLsb'_toNat, Nat.shiftRight_eq_div_pow, pack_toNat hp hq]
  omega

theorem valid_lt {s : State} (h : s.valid) : s.s1.toNat < 2 ^ 16 ∧ s.s2.toNat < 2 ^ 16 := by
  have : s.s1.toNat < 65521 ∧ s.s2.toNat < 65521 := h
  omega

/-- Settles O19: the two halves of a valid state have 16 bits each, so the packed word holds both. -/
theorem sumIsThePackedChecksum : Obligations.SumIsThePackedChecksum := by
  intro s
  refine ⟨rfl, fun hroom => exec_rd_of_room hroom .sum,
    fun v => ⟨_, exec_wr_of_not_writable rfl v s, rfl, rfl, rfl⟩, fun hv => ?_⟩
  obtain ⟨h1, h2⟩ := valid_lt hv
  exact ⟨pack_high h1 h2, pack_low h1 h2, pack_toNat h1 h2⟩

theorem sr_toNat (s : State) : s.sr.toNat = s.cause.toNat * 2 + s.f.toNat := by
  have hc := s.cause.isLt
  have hf := s.f.toNat_lt
  rw [State.sr, BitVec.toNat_setWidth, BitVec.toNat_append, BitVec.toNat_ofBool,
    ← Nat.shiftLeft_add_eq_or_of_lt (by omega), Nat.shiftLeft_eq]
  omega

theorem sr_getLsbD_zero (s : State) : s.sr.getLsbD 0 = s.f := by
  rw [BitVec.getLsbD, sr_toNat, Nat.testBit_zero]
  cases s.f <;> simp

theorem sr_cause (s : State) : s.sr.extractLsb' 1 2 = s.cause := by
  have hc := s.cause.isLt
  have hf := s.f.toNat_lt
  apply BitVec.eq_of_toNat_eq
  rw [BitVec.extractLsb'_toNat, Nat.shiftRight_eq_div_pow, sr_toNat]
  omega

theorem sr_high (s : State) : s.sr.extractLsb' 3 29 = 0#29 := by
  have hc := s.cause.isLt
  have hf := s.f.toNat_lt
  apply BitVec.eq_of_toNat_eq
  rw [BitVec.extractLsb'_toNat, Nat.shiftRight_eq_div_pow, sr_toNat, BitVec.toNat_ofNat]
  omega

theorem raiseFault_sr (c : Cause) (s : State) :
    (raiseFault c s).sr = BitVec.ofNat 32 ((causeCode c).toNat * 2 + 1) := by
  apply BitVec.eq_of_toNat_eq
  rw [sr_toNat]
  cases c <;> rfl

/-- Settles O20: the fields of `SR` are the latch's, and the invariant ties `CAUSE` to `F` in every run from reset. -/
theorem srShowsTheFaultLatch : Obligations.SrShowsTheFaultLatch := by
  refine ⟨fun s => ⟨sr_getLsbD_zero s, sr_cause s, sr_high s⟩,
    fun s => ⟨raiseFault_sr .illegalOpcode s, raiseFault_sr .illegalRegister s, raiseFault_sr .reservedNotZero s⟩,
    fun s => ⟨fun hroom => exec_rd_of_room hroom .sr, fun _ _ => ?_⟩, fun es t h => ?_⟩
  · rw [exec_wr_of_not_writable rfl, exec_wr_of_not_writable rfl]
  · exact (everyRunKeepsTheInvariant es _ t resetMeetsTheInvariants.1 h).1.symm

end Machine

end Sys2Proof
end

section
/-! SUPPORT. The data channel as UPDATE sees it (20_memory R55, R61, R64, 41_update R133, R145): the wait for missing
beats, beats that come late, and which bytes of the beats have an influence. -/

namespace Sys2Proof.Machine

/-! ## The wait, under either reading of `OOR_MODEL` -/

/-- The scratch that an UPDATE of length `n` holds when it has taken the beats at hand. -/
def scratchAfterBeats (m : OorModel) (n : Word) (s : State) : UpdateScratch :=
  (takeBeatsBy (takeUnder m (s.s1, s.s2)) (startUpdate n s) s.data).1

theorem ne_zero_of_lt_beatsNeeded {n : Word} {k : Nat} (h : k < beatsNeeded n.toNat) : n ≠ 0#32 := by
  rintro rfl
  exact Nat.not_lt_zero k h

section
variable {n : Word} {s : State} (h : s.data.length < beatsNeeded n.toNat)
include h

/-- Where a beat is missing every beat at hand is taken, and the scratch counts 16 bytes for each. -/
theorem scratchAfterBeats_of_missing (m : OorModel) :
    (takeBeats (startUpdate n s) s.data).2 = [] ∧ (scratchAfterBeats m n s).n = n ∧
    (scratchAfterBeats m n s).p.toNat = 16 * s.data.length ∧ (scratchAfterBeats m n s).wf := by
  have hn := ne_zero_of_lt_beatsNeeded h
  obtain ⟨-, hcountn, hcountp⟩ :=
    takeBeatsBy_takeUnder_count m (s.s1, s.s2) (u := startUpdate n s) rfl rfl s.data
  obtain ⟨-, hle, -⟩ | ⟨hw, -, hdata, hwn, hwp⟩ := takeBeats_cases (startUpdate_wf hn s) s.data
  · exact absurd hle (Nat.not_le.mpr h)
  · refine ⟨hdata, hcountn.trans hwn, ?_, ?_⟩
    · rw [scratchAfterBeats, hcountp, hwp]
      exact Nat.zero_add _
    · rw [UpdateScratch.wf, scratchAfterBeats, hcountn, hcountp]
      exact hw

theorem updateUnder_of_missing (m : OorModel) :
    updateUnder m n s = .next { s with data := [], progress := some (.update (scratchAfterBeats m n s)) } := by
  obtain ⟨hdata, -, -, hw⟩ := scratchAfterBeats_of_missing h m
  rw [updateUnder, if_neg (ne_zero_of_lt_beatsNeeded h)]
  obtain ⟨hdone, -⟩ | ⟨-, hrun⟩ := runUpdate_under_cases m (startUpdate n s) s
  · rw [← takeBeatsBy_takeUnder_isDone m (s.s1, s.s2), ← scratchAfterBeats, not_isDone_of_wf hw] at hdone
    contradiction
  · rw [hrun, hdata]
    rfl

end

/-- Settles O33: a run of beats that is too short takes them all and stops in a well-formed scratch. -/
theorem updateWaitsForMissingBeats : Obligations.UpdateWaitsForMissingBeats := by
  intro n s h
  obtain ⟨-, hn, hp, hw⟩ := scratchAfterBeats_of_missing h Config.oorModel
  exact ⟨_, updateUnder_of_missing h Config.oorModel, hn, hp, hw⟩

/-! ## Beats that come late -/

/-- An UPDATE that goes on from where its beats ran out does what it would have done with all the beats at once: a run
over a longer list is a run over its second part from where the first one stopped. -/
theorem runUpdate_append (m : OorModel) (u : UpdateScratch) (s : State) (d more : List Beat)
    (h : (takeBeatsBy (takeUnder m (s.s1, s.s2)) u d).1.isDone = false) :
    runUpdate m (takeBeatsBy (takeUnder m (s.s1, s.s2)) u d).1 { s with data := more } =
      runUpdate m u { s with data := d ++ more } := by
  simp [runUpdate, takeBeatsBy_append, h]

theorem updateUnder_append (m : OorModel) {n : Word} {s : State} (h : s.data.length < beatsNeeded n.toNat)
    (more : List Beat) :
    updateUnder m n { s with data := s.data ++ more } =
      .next (runUpdate m (scratchAfterBeats m n s) { s with data := more }) := by
  obtain ⟨-, -, -, hw⟩ := scratchAfterBeats_of_missing h m
  rw [updateUnder, if_neg (ne_zero_of_lt_beatsNeeded h), scratchAfterBeats,
    runUpdate_append m _ s _ _ (not_isDone_of_wf hw)]
  rfl

theorem step_of_waiting_update {s : State} {u : UpdateScratch} (hp : s.progress = some (.update u)) :
    step s = .next (runUpdate Config.oorModel u { s with progress := none }) := by
  simp only [step, turn, hp, resume]

/-- Settles O34: the step that goes on and the UPDATE with all its beats are the same run of beats, cut in two. -/
theorem lateBeatsGiveTheSameState : Obligations.LateBeatsGiveTheSameState := by
  intro n s t more hidle h hexec
  obtain rfl := Host.Outcome.next.inj ((updateUnder_of_missing h Config.oorModel).symm.trans hexec)
  have hs : { s with progress := none, data := more } = { s with data := more } := by rw [← hidle]
  rw [step_of_waiting_update rfl, hs]
  exact (updateUnder_append Config.oorModel h more).symm

/-! ## Which bytes have an influence -/

/-- A buffer of `k` bytes is the leading lanes of its first beat, then the rest of it in the beats after. -/
theorem bufferOf_cons (k : Nat) (v : Beat) (d : List Beat) :
    bufferOf k (v :: d) = lanes v (min k 16) ++ bufferOf (k - 16) d := by
  rw [bufferOf, List.flatMap_cons, List.take_append, List.take_eq_take_min, lanes_length,
    lanes_take v (Nat.min_le_right k 16)]
  rfl

theorem beatsNeeded_sub_le {k l : Nat} (h : beatsNeeded k ≤ l + 1) : beatsNeeded (k - 16) ≤ l := by
  unfold beatsNeeded at *
  omega

section
variable {u : UpdateScratch} (hw : u.wf)
include hw

theorem beatsNeeded_missing_pos : 0 < beatsNeeded (u.n.toNat - u.p.toNat) := by
  have hlt := hw.1
  unfold beatsNeeded
  omega

theorem takeUnder_missing (m : OorModel) (q : Pair) (v : Beat) :
    (takeUnder m q u v).n.toNat - (takeUnder m q u v).p.toNat = u.n.toNat - u.p.toNat - 16 := by
  have hp := takeBeat_p_toNat hw v
  have hlt := hw.1
  rw [takeUnder_n, takeUnder_p]
  split at hp <;> omega

theorem takeUnder_isDone_or_wf (m : OorModel) (q : Pair) (v : Beat) :
    (takeUnder m q u v).isDone = true ∨ (takeUnder m q u v).wf := by
  have hbeat : (takeBeat u v).isDone = true ∨ (takeBeat u v).wf := (takeBeat_wf hw v).imp And.left And.left
  simpa only [isDone_iff, UpdateScratch.wf, takeUnder_n, takeUnder_p, takeBeat_n] using hbeat

variable {v v' : Beat} (h : lanes v (min (u.n.toNat - u.p.toNat) 16) = lanes v' (min (u.n.toNat - u.p.toNat) 16))
include h

/-- Of a beat the rules read the lanes of the bytes still missing, in each of the three regimes. -/
theorem takeBeat_congr_lanes : takeBeat u v = takeBeat u v' := by
  obtain ⟨hlt, hmul, hshort⟩ := hw
  by_cases h16 : u.n.toNat < 16
  · have hp := hshort h16
    rw [show min (u.n.toNat - u.p.toNat) 16 = u.n.toNat by omega] at h
    rw [takeBeat_of_short h16, takeBeat_of_short h16, takeShort, takeShort, h]
  · by_cases hg : u.p.toNat + 16 ≤ u.n.toNat
    · rw [show min (u.n.toNat - u.p.toNat) 16 = Config.groupSize by unfold Config.groupSize; omega] at h
      rw [takeBeat_of_group (by omega) hg, takeBeat_of_group (by omega) hg, takeGroup, takeGroup, group, group, h]
    · rw [show min (u.n.toNat - u.p.toNat) 16 = u.n.toNat % Config.groupSize by unfold Config.groupSize; omega] at h
      rw [takeBeat_of_tail (by omega) (by omega), takeBeat_of_tail (by omega) (by omega), takeTail, takeTail, h]

/-- The free value of an open UPDATE is given the same lanes and no others. -/
theorem takeUnder_congr_lanes (m : OorModel) (q : Pair) : takeUnder m q u v = takeUnder m q u v' := by
  have hbeat := takeBeat_congr_lanes hw h
  cases ho : valueIsOpen m q
  · rw [takeUnder_closed ho, hbeat]
  · have hk : (takeBeat u v').p.toNat - u.p.toNat = min (u.n.toNat - u.p.toNat) 16 := by
      have hp := takeBeat_p_toNat hw v'
      have hlt := hw.1
      split at hp <;> omega
    simp only [takeUnder, ho, if_true, takeOpen, hbeat, hk, h]

end

/-- With the beats there, the scratch at the end is a function of the scratch at the start and the bytes missing. -/
theorem takeBeatsBy_congr_bufferOf (m : OorModel) (q : Pair) {u : UpdateScratch} (hw : u.wf) {d d' : List Beat}
    (hd : beatsNeeded (u.n.toNat - u.p.toNat) ≤ d.length) (hd' : beatsNeeded (u.n.toNat - u.p.toNat) ≤ d'.length)
    (h : bufferOf (u.n.toNat - u.p.toNat) d = bufferOf (u.n.toNat - u.p.toNat) d') :
    (takeBeatsBy (takeUnder m q) u d).1 = (takeBeatsBy (takeUnder m q) u d').1 := by
  induction d generalizing u d' with
  | nil => exact absurd hd (Nat.not_le.mpr (beatsNeeded_missing_pos hw))
  | cons v d ih =>
    cases d' with
    | nil => exact absurd hd' (Nat.not_le.mpr (beatsNeeded_missing_pos hw))
    | cons v' d' =>
      rw [bufferOf_cons, bufferOf_cons] at h
      obtain ⟨hlanes, hrest⟩ := List.append_inj h (by rw [lanes_length, lanes_length])
      have hnot := not_isDone_of_wf hw
      rw [takeBeatsBy_cons hnot, takeBeatsBy_cons hnot, ← takeUnder_congr_lanes hw hlanes]
      obtain hdone | hw' := takeUnder_isDone_or_wf hw m q v
      · rw [takeBeatsBy_done hdone, takeBeatsBy_done hdone]
      · apply ih hw' <;> rw [takeUnder_missing hw]
        · exact beatsNeeded_sub_le hd
        · exact beatsNeeded_sub_le hd'
        · exact hrest

/-- Settles O51: beat by beat, both runs read the same bytes. -/
theorem openUpdateDependsOnTheBufferOnly : Obligations.OpenUpdateDependsOnTheBufferOnly := by
  intro m n s t h1 h2 hs ht hbuf
  by_cases hn : n = 0#32
  · subst hn
    exact ⟨_, _, updateUnder_zero m s, updateUnder_zero m t, rfl, rfl⟩
  · have hstart : startUpdate n t = startUpdate n s := by rw [startUpdate, startUpdate, h1, h2]
    have hpair : updatePair m n s = updatePair m n t := by
      rw [updatePair, updatePair, hstart, ← h1, ← h2,
        takeBeatsBy_congr_bufferOf m _ (startUpdate_wf hn s) hs ht hbuf]
    refine ⟨_, _, updateUnder_of_beats hn hs m, updateUnder_of_beats hn ht m, ?_, ?_⟩
    · exact congrArg Prod.fst hpair
    · exact congrArg Prod.snd hpair

/-- Settles O40: it is O51 for the `OOR_MODEL` of Config. -/
theorem updateDependsOnTheBufferOnly : Obligations.UpdateDependsOnTheBufferOnly :=
  openUpdateDependsOnTheBufferOnly Config.oorModel

end Sys2Proof.Machine
end

section
/-! SUPPORT. The words of the command channel and the beats of a buffer (30_encoding R75 to R82): the decoder and the
encoder are inverse to each other, which words are refused and why, and the bytes a packed buffer carries. -/

namespace Sys2Proof

/-- Settles O1: each word is a closed term. -/
theorem specWordsDecodeAsWritten : Obligations.SpecWordsDecodeAsWritten := by
  unfold Obligations.SpecWordsDecodeAsWritten
  decide

/-! ## From a command to its word and back -/

theorem cmdWord_eq_iff {o r : BitVec 8} {v : Word} {w : CmdWord} :
    cmdWord o r v = w ↔ opcField w = o ∧ regField w = r ∧ rsvField w = 0#16 ∧ immField w = v := by
  constructor
  · rintro rfl
    simp
  · rintro ⟨rfl, rfl, h, rfl⟩
    exact cmdWord_fields h

theorem number_le_three (r : Reg) : r.number.toNat ≤ 3 := by cases r <;> decide

theorem number_le_one {r : Reg} (h : r.writable = true) : r.number.toNat ≤ 1 := by
  cases r with
  | s1 => decide
  | s2 => decide
  | sum => cases h
  | sr => cases h

/-- Settles O2: the decoder finds in the word the fields the encoder put there, and none of its tests refuses them. -/
theorem decodeOfEncodeIsTheCommand : Obligations.DecodeOfEncodeIsTheCommand := by
  intro i hw
  cases i with
  | init => rfl
  | wr r v =>
    have hr := number_le_one hw
    simp [decode, encode, regNamed_number, hr]
  | rd r =>
    have hr := number_le_three r
    simp [decode, encode, regNamed_number, hr]
  | update n => simp [decode, encode]

/-! ## The causes of an illegal word, by its fields -/

/-- `OPC` is the number of no command (R72). -/
def BadOpcode (w : CmdWord) : Prop := (opcField w).toNat = 0 ∨ 5 ≤ (opcField w).toNat

/-- `REG` is a number the command does not accept (R73). -/
def BadRegister (w : CmdWord) : Prop :=
  ((opcField w).toNat = 2 ∧ 2 ≤ (regField w).toNat) ∨ ((opcField w).toNat = 3 ∧ 4 ≤ (regField w).toNat)

/-- A bit the command does not use is set (R80). -/
def BadReserved (w : CmdWord) : Prop :=
  (rsvField w).toNat ≠ 0 ∨
  (((opcField w).toNat = 1 ∨ (opcField w).toNat = 4) ∧ (regField w).toNat ≠ 0) ∨
  (((opcField w).toNat = 1 ∨ (opcField w).toNat = 3) ∧ (immField w).toNat ≠ 0)

theorem decode_of_badOpcode {w : CmdWord} (h : BadOpcode w) : decode w = .illegal .illegalOpcode := by
  unfold BadOpcode at h
  simp only [decode]
  rw [if_pos (by bv_omega)]

theorem decode_of_badRegister {w : CmdWord} (h : BadRegister w) : decode w = .illegal .illegalRegister := by
  simp only [decode]
  obtain hwr | hrd := h
  · rw [if_neg (by bv_omega), if_pos (by bv_omega)]
  · rw [if_neg (by bv_omega), if_neg (by bv_omega), if_pos (by bv_omega)]

section
variable {w : CmdWord} (ho : ¬ BadOpcode w) (hr : ¬ BadRegister w)
include ho hr

theorem decode_of_badReserved (h : BadReserved w) : decode w = .illegal .reservedNotZero := by
  unfold BadOpcode at ho
  unfold BadRegister at hr
  unfold BadReserved at h
  simp only [decode]
  rw [if_neg (by bv_omega), if_neg (by bv_omega), if_neg (by bv_omega)]
  by_cases hrsv : rsvField w = 0#16
  · rw [if_neg (by bv_omega)]
    by_cases hreg : (opcField w = 0x01#8 ∨ opcField w = 0x04#8) ∧ regField w ≠ 0#8
    · rw [if_pos hreg]
    · rw [if_neg hreg, if_pos (by bv_omega)]
  · rw [if_pos hrsv]

/-- A word no cause applies to is the word of a command, and is decoded to it. -/
theorem decode_of_legal (hs : ¬ BadReserved w) : ∃ i, decode w = .command i ∧ encode i = w := by
  unfold BadOpcode at ho
  unfold BadRegister at hr
  unfold BadReserved at hs
  have hrsv : rsvField w = 0#16 := by bv_omega
  simp only [decode]
  rw [if_neg (by bv_omega), if_neg (by bv_omega), if_neg (by bv_omega), if_neg (by bv_omega), if_neg (by bv_omega),
    if_neg (by bv_omega)]
  obtain h | h | h | h : opcField w = 0x01#8 ∨ opcField w = 0x02#8 ∨ opcField w = 0x03#8 ∨ opcField w = 0x04#8 := by
    bv_omega
  · rw [if_pos h]
    exact ⟨.init, rfl, cmdWord_eq_iff.mpr ⟨h, by bv_omega, hrsv, by bv_omega⟩⟩
  · rw [if_neg (by bv_omega), if_pos h]
    exact ⟨.wr (regNamed (regField w)) (immField w), rfl,
      cmdWord_eq_iff.mpr ⟨h, (number_regNamed (by bv_omega)).symm, hrsv, rfl⟩⟩
  · rw [if_neg (by bv_omega), if_neg (by bv_omega), if_pos h]
    exact ⟨.rd (regNamed (regField w)), rfl,
      cmdWord_eq_iff.mpr ⟨h, (number_regNamed (by bv_omega)).symm, hrsv, by bv_omega⟩⟩
  · rw [if_neg (by bv_omega), if_neg (by bv_omega), if_neg (by bv_omega)]
    exact ⟨.update (immField w), rfl, cmdWord_eq_iff.mpr ⟨h, by bv_omega, hrsv, rfl⟩⟩

end

/-- Settles O5: with no cause the word is a command, so each verdict has its cause only. -/
theorem illegalWordsByCause : Obligations.IllegalWordsByCause := by
  intro w
  dsimp only
  rw [← opcField_toNat, ← regField_toNat, ← rsvField_toNat, ← immField_toNat]
  change (_ ↔ BadOpcode w) ∧ (_ ↔ ¬ BadOpcode w ∧ BadRegister w) ∧
    (_ ↔ ¬ BadOpcode w ∧ ¬ BadRegister w ∧ BadReserved w)
  by_cases ho : BadOpcode w
  · simp [decode_of_badOpcode ho, ho]
  by_cases hr : BadRegister w
  · simp [decode_of_badRegister hr, ho, hr]
  by_cases hs : BadReserved w
  · simp [decode_of_badReserved ho hr hs, ho, hr, hs]
  · obtain ⟨i, hd, -⟩ := decode_of_legal ho hr hs
    simp [hd, ho, hr, hs]

/-- Settles O3: no cause applies to a legal word, so the command it is decoded to is the one it is the word of. -/
theorem legalWordIsItsCommandsEncoding : Obligations.LegalWordIsItsCommandsEncoding := by
  intro w i hd
  have ho : ¬ BadOpcode w := fun h => by cases (decode_of_badOpcode h).symm.trans hd
  have hr : ¬ BadRegister w := fun h => by cases (decode_of_badRegister h).symm.trans hd
  have hs : ¬ BadReserved w := fun h => by cases (decode_of_badReserved ho hr h).symm.trans hd
  obtain ⟨j, hj, he⟩ := decode_of_legal ho hr hs
  obtain rfl := Verdict.command.inj (hj.symm.trans hd)
  exact ⟨wf_of_decode hd, he⟩

/-! ## The match and mask pairs -/

theorem decode_eq_command_iff {w : CmdWord} {i : Instr} : decode w = .command i ↔ i.wf = true ∧ encode i = w := by
  constructor
  · exact legalWordIsItsCommandsEncoding w i
  · rintro ⟨hw, rfl⟩
    exact decodeOfEncodeIsTheCommand i hw

/-- The numbers of the registers `WR` accepts: bit 0 is free. -/
theorem exists_writable_number_iff (n : BitVec 8) :
    (∃ r : Reg, r.writable = true ∧ n = r.number) ↔ n &&& 0xFE#8 = 0#8 := by
  constructor
  · rintro ⟨r, hw, rfl⟩
    cases r with
    | s1 => rfl
    | s2 => rfl
    | sum => cases hw
    | sr => cases hw
  · intro h
    refine ⟨regNamed n, ?_⟩
    revert n
    decide

/-- The numbers of the registers: bits 1:0 are free. -/
theorem exists_number_iff (n : BitVec 8) : (∃ r : Reg, n = r.number) ↔ n &&& 0xFC#8 = 0#8 := by
  constructor
  · rintro ⟨r, rfl⟩
    cases r <;> rfl
  · intro h
    refine ⟨regNamed n, ?_⟩
    revert n
    decide

/-- A mask with all of `OPC` and `RSV`, as the four commands have, leaves two fields to look at. -/
theorem and_eq_cmdWord_iff {w m : CmdWord} (mr : BitVec 8) (mi : Word) {o r : BitVec 8} {v : Word}
    (ho : opcField m = BitVec.allOnes 8) (hr : regField m = mr) (hs : rsvField m = BitVec.allOnes 16)
    (hi : immField m = mi) :
    w &&& m = cmdWord o r v ↔
      opcField w = o ∧ regField w &&& mr = r ∧ rsvField w = 0#16 ∧ immField w &&& mi = v := by
  rw [and_eq_iff_fields, ho, hr, hs, hi, BitVec.and_allOnes, BitVec.and_allOnes, opcField_cmdWord, regField_cmdWord,
    rsvField_cmdWord, immField_cmdWord]

theorem decode_init_iff (w : CmdWord) :
    decode w = .command .init ↔ w &&& 0xFFFFFFFFFFFFFFFF#64 = cmdWord 0x01#8 0#8 0#32 := by
  rw [and_eq_cmdWord_iff (BitVec.allOnes 8) (BitVec.allOnes 32) rfl rfl rfl rfl, BitVec.and_allOnes,
    BitVec.and_allOnes, decode_eq_command_iff, encode, cmdWord_eq_iff]
  exact and_iff_right rfl

theorem decode_wr_iff (w : CmdWord) :
    (∃ r v, decode w = .command (.wr r v)) ↔ w &&& 0xFFFEFFFF00000000#64 = cmdWord 0x02#8 0#8 0#32 := by
  rw [and_eq_cmdWord_iff 0xFE#8 0#32 rfl rfl rfl rfl, ← exists_writable_number_iff]
  simp only [decode_eq_command_iff, encode, cmdWord_eq_iff]
  constructor
  · rintro ⟨r, v, hw, ho, hr, hs, -⟩
    exact ⟨ho, ⟨r, hw, hr⟩, hs, BitVec.and_zero⟩
  · rintro ⟨ho, ⟨r, hw, hr⟩, hs, -⟩
    exact ⟨r, immField w, hw, ho, hr, hs, rfl⟩

theorem decode_rd_iff (w : CmdWord) :
    (∃ r, decode w = .command (.rd r)) ↔ w &&& 0xFFFCFFFFFFFFFFFF#64 = cmdWord 0x03#8 0#8 0#32 := by
  rw [and_eq_cmdWord_iff 0xFC#8 (BitVec.allOnes 32) rfl rfl rfl rfl, BitVec.and_allOnes, ← exists_number_iff]
  simp only [decode_eq_command_iff, encode, cmdWord_eq_iff]
  constructor
  · rintro ⟨r, -, ho, hr, hs, hi⟩
    exact ⟨ho, ⟨r, hr⟩, hs, hi⟩
  · rintro ⟨ho, ⟨r, hr⟩, hs, hi⟩
    exact ⟨r, rfl, ho, hr, hs, hi⟩

theorem decode_update_iff (w : CmdWord) :
    (∃ n, decode w = .command (.update n)) ↔ w &&& 0xFFFFFFFF00000000#64 = cmdWord 0x04#8 0#8 0#32 := by
  rw [and_eq_cmdWord_iff (BitVec.allOnes 8) 0#32 rfl rfl rfl rfl, BitVec.and_allOnes]
  simp only [decode_eq_command_iff, encode, cmdWord_eq_iff]
  constructor
  · rintro ⟨n, -, ho, hr, hs, -⟩
    exact ⟨ho, hr, hs, BitVec.and_zero⟩
  · rintro ⟨ho, hr, hs, -⟩
    exact ⟨immField w, rfl, ho, hr, hs, rfl⟩

/-- Settles O4: a mask leaves out the bits that a command's operands use, and those only. -/
theorem legalWordsAreTheMatchMaskWords : Obligations.LegalWordsAreTheMatchMaskWords :=
  fun w => ⟨decode_init_iff w, decode_wr_iff w, decode_rd_iff w, decode_update_iff w⟩

end Sys2Proof

namespace Sys2Proof.Machine

/-! ## The bytes of a packed buffer -/

theorem packBeat_cons (x : Byte) (xs : List Byte) :
    packBeat (x :: xs) = (packBeat xs <<< 8) ||| x.setWidth 128 := rfl

theorem lane_packBeat_cons_zero (x : Byte) (xs : List Byte) : lane (packBeat (x :: xs)) 0 = x := by
  rw [packBeat_cons, lane]
  ext j hj
  have hj128 : j < 128 := by omega
  simp [hj, hj128, BitVec.getLsbD_eq_getElem]

/-- A byte put in front moves the others one lane up. -/
theorem lane_packBeat_cons_succ (x : Byte) (xs : List Byte) {i : Nat} (hi : i < 15) :
    lane (packBeat (x :: xs)) (i + 1) = lane (packBeat xs) i := by
  rw [packBeat_cons, lane, lane]
  ext j hj
  have hin : 8 * i + j < 128 := by omega
  have hin' : 8 * (i + 1) + j < 128 := by omega
  have habove : ¬ 8 * (i + 1) + j < 8 := by omega
  have hdown : 8 * (i + 1) + j - 8 = 8 * i + j := by omega
  have hx : x.getLsbD (8 * (i + 1) + j) = false := BitVec.getLsbD_of_ge x _ (by omega)
  simp [hin, hin', habove, hdown, hx, BitVec.getLsbD_eq_getElem]

theorem lane_packBeat (bytes : List Byte) {i : Nat} (hi : i < 16) : lane (packBeat bytes) i = bytes.getD i 0#8 := by
  induction bytes generalizing i with
  | nil => simp [packBeat, lane]
  | cons x xs ih =>
    cases i with
    | zero => exact lane_packBeat_cons_zero x xs
    | succ i => exact (lane_packBeat_cons_succ x xs (by omega)).trans (ih (by omega))

/-- A beat holds its bytes, then zeros. -/
theorem lanes_packBeat {bytes : List Byte} (h : bytes.length ≤ 16) :
    lanes (packBeat bytes) 16 = bytes ++ List.replicate (16 - bytes.length) 0#8 := by
  apply List.ext_getElem
  · rw [lanes_length, List.length_append, List.length_replicate]
    omega
  · intro i hi _
    rw [lanes_length] at hi
    by_cases hb : i < bytes.length
    · simp [lanes, lane_packBeat bytes hi, hb]
    · rw [List.getElem_append_right (by omega)]
      simp [lanes, lane_packBeat bytes hi, hb]

@[simp] theorem packBeatsN_length (k : Nat) (bytes : List Byte) : (packBeatsN k bytes).length = k := by
  induction k generalizing bytes with
  | zero => rfl
  | succ k ih => rw [packBeatsN, List.length_cons, ih]

/-- The lanes of `k` beats are the bytes, then zeros. -/
theorem lanes_packBeatsN {k : Nat} {bytes : List Byte} (h : bytes.length ≤ 16 * k) :
    (packBeatsN k bytes).flatMap (fun v => lanes v 16) = bytes ++ List.replicate (16 * k - bytes.length) 0#8 := by
  induction k generalizing bytes with
  | zero =>
    obtain rfl := List.eq_nil_of_length_eq_zero (Nat.le_zero.mp h)
    rfl
  | succ k ih =>
    rw [packBeatsN, List.flatMap_cons, ih (by rw [List.length_drop]; omega), lanes_packBeat (by simp)]
    by_cases hlast : bytes.length ≤ 16
    · rw [List.take_of_length_le hlast, List.drop_of_length_le hlast, List.nil_append, List.length_nil,
        List.append_assoc, ← List.replicate_add]
      congr 2
      omega
    · rw [List.length_take_of_le (by omega), Nat.sub_self, List.replicate_zero, List.append_nil, ← List.append_assoc,
        List.take_append_drop, List.length_drop]
      congr 2
      omega

theorem lanes_packBeats (bytes : List Byte) :
    (packBeats bytes).flatMap (fun v => lanes v 16) =
      bytes ++ List.replicate (16 * beatsNeeded bytes.length - bytes.length) 0#8 :=
  lanes_packBeatsN (by omega)

/-- Settles O6: the lanes of the beats are the bytes, then zeros. -/
theorem packedBeatsCarryTheBuffer : Obligations.PackedBeatsCarryTheBuffer := by
  intro bytes
  refine ⟨packBeatsN_length _ _, ?_, ?_⟩
  · rw [bufferOf, lanes_packBeats, List.take_left]
  · rw [lanes_packBeats, List.drop_left]
    exact fun x hx => List.eq_of_mem_replicate hx

end Sys2Proof.Machine
end

section
/-! SUPPORT. The commands of the host's programs (40_state_commands R100 to R104): the step that takes a legal word,
what each command answers and leaves unchanged, and `CALL`. -/

namespace Sys2Proof.Machine

/-! ## INIT, WR and RD -/

/-- Settles O21: by the definition of `INIT`, whose constants are those of 00_scope R5. -/
theorem initSetsTheIdentityState : Obligations.InitSetsTheIdentityState := fun _ => rfl

theorem exec_wr_of_writable {r : Reg} (h : r.writable = true) (v : Word) (s : State) :
    exec (.wr r v) s = .next (s.writeReg r v) := if_pos h

/-- Settles O22: `S1` and `S2` are the writable registers, and the other two take the fault. -/
theorem wrStoresTheValue : Obligations.WrStoresTheValue := fun s v =>
  ⟨exec_wr_of_writable (r := .s1) rfl v s, exec_wr_of_writable (r := .s2) rfl v s,
    exec_wr_of_not_writable (r := .sum) rfl v s, exec_wr_of_not_writable (r := .sr) rfl v s⟩

theorem sr_eq_ofNat (s : State) : s.sr = BitVec.ofNat 32 (s.cause.toNat * 2 + s.f.toNat) := by
  rw [← sr_toNat, BitVec.ofNat_toNat, BitVec.setWidth_eq]

/-- Settles O23: with room `RD` appends `readReg`, here read for each of the four registers. -/
theorem rdSendsTheRegister : Obligations.RdSendsTheRegister := by
  intro s hroom
  rw [← sr_eq_ofNat]
  exact ⟨exec_rd_of_room hroom .s1, exec_rd_of_room hroom .s2, exec_rd_of_room hroom .sum,
    exec_rd_of_room hroom .sr⟩

/-! ## The step that takes a legal word -/

/-- Settles O7: the loop's case of no command in progress, a word there, the running state, and a command decoded. -/
theorem stepRunsTheDecodedCommand : Obligations.StepRunsTheDecodedCommand := by
  intro s w rest i hp hf hc hd
  simp only [step, turn, hp, hc, serve, hf, hd, Bool.false_eq_true, if_false]

/-- The running machine, between commands, spends one step on a legal command. -/
theorem runCore_succ_of_encode {i : Instr} {s t : State} {rest : List CmdWord} {k : Nat} (hw : i.wf = true)
    (hp : s.progress = none) (hf : s.f = false) (hc : s.cmd = encode i :: rest)
    (h : exec i { s with cmd := rest } = .next t) : runCore (k + 1) s = runCore k t :=
  runCore_succ ((stepRunsTheDecodedCommand s _ rest i hp hf hc (decodeOfEncodeIsTheCommand i hw)).trans h)

/-! ## What each command leaves unchanged -/

theorem writeReg_s1_of_ne {r : Reg} (h : r ≠ .s1) (s : State) (v : Word) : (s.writeReg r v).s1 = s.s1 := by
  cases r with
  | s1 => contradiction
  | s2 => rfl
  | sum => rfl
  | sr => rfl

theorem writeReg_s2_of_ne {r : Reg} (h : r ≠ .s2) (s : State) (v : Word) : (s.writeReg r v).s2 = s.s2 := by
  cases r with
  | s1 => rfl
  | s2 => contradiction
  | sum => rfl
  | sr => rfl

theorem respond_progress_of_room {depth : Option Nat} {s : State} (h : hasRoom depth s.rsp = true) (r : Reg) :
    (respond depth r s).progress = s.progress := by
  rw [respond, if_pos h]

/-- `UPDATE` with its beats there changes `S1`, `S2` and the data channel; without them, the data channel and the
command in progress. -/
theorem exec_update_cases (n : Word) (s : State) :
    (beatsNeeded n.toNat ≤ s.data.length ∧ ∃ q : Pair, exec (.update n) s = .next { s with
      s1 := q.1
      s2 := q.2
      data := s.data.drop (beatsNeeded n.toNat) }) ∨
    (s.data.length < beatsNeeded n.toNat ∧ ∃ u : UpdateScratch,
      exec (.update n) s = .next { s with data := [], progress := some (.update u) }) := by
  by_cases hd : beatsNeeded n.toNat ≤ s.data.length
  · obtain ⟨q, hq, -⟩ := (updateFollowsItsOorModel Config.oorModel n s hd).1
    exact .inl ⟨hd, q, hq⟩
  · obtain ⟨u, hu, -⟩ := updateWaitsForMissingBeats n s (Nat.lt_of_not_le hd)
    exact .inr ⟨Nat.lt_of_not_le hd, u, hu⟩

/-- Settles O25: each command is one of a few updates of the state, and each of these shows what it leaves alone. -/
theorem commandFrames : Obligations.CommandFrames := by
  intro s t r v n
  refine ⟨fun h => ?_, fun h => ?_, fun h => ?_, fun h => ?_⟩
  · obtain rfl := Host.Outcome.next.inj ((initSetsTheIdentityState s).symm.trans h)
    exact ⟨rfl, rfl, rfl, rfl, rfl, rfl⟩
  · cases hr : r.writable
    · obtain rfl := Host.Outcome.next.inj ((exec_wr_of_not_writable hr v s).symm.trans h)
      exact ⟨rfl, rfl, rfl, rfl, fun _ => rfl, fun _ => rfl, fun hw => nomatch hw⟩
    · obtain rfl := Host.Outcome.next.inj ((exec_wr_of_writable hr v s).symm.trans h)
      exact ⟨writeReg_progress .., writeReg_cmd .., writeReg_data .., writeReg_rsp ..,
        fun h1 => writeReg_s1_of_ne h1 s v, fun h2 => writeReg_s2_of_ne h2 s v, fun _ => ⟨writeReg_f .., writeReg_cause ..⟩⟩
  · obtain rfl : respond Config.rspDepth r s = t := Host.Outcome.next.inj h
    exact ⟨respond_s1 .., respond_s2 .., respond_f .., respond_cause .., respond_cmd .., respond_data ..,
      fun hroom => respond_progress_of_room hroom r⟩
  · obtain ⟨hd, q, hq⟩ | ⟨hd, u, hu⟩ := exec_update_cases n s
    · obtain rfl := Host.Outcome.next.inj (hq.symm.trans h)
      exact ⟨rfl, rfl, rfl, rfl, fun _ => rfl, fun hlt => absurd hd (Nat.not_le.mpr hlt)⟩
    · obtain rfl := Host.Outcome.next.inj (hu.symm.trans h)
      exact ⟨rfl, rfl, rfl, rfl, fun hle => absurd hle (Nat.not_le.mpr hd), fun _ => ⟨rfl, rfl⟩⟩

/-! ## CALL -/

/-- What the source's `update(s1, s2, buf)` returns for a valid pair (R104): the reference result, and `(1, 0)` for an
empty buffer (41_update R127). -/
def byValueResult (q : Pair) (bytes : List Byte) : Pair := if bytes = [] then (1#32, 0#32) else ref q bytes

@[simp] theorem byValueResult_nil (q : Pair) : byValueResult q [] = (1#32, 0#32) := rfl

theorem byValueResult_of_ne_nil {bytes : List Byte} (h : bytes ≠ []) (q : Pair) :
    byValueResult q bytes = ref q bytes := if_neg h

@[simp] theorem packBeats_length (bytes : List Byte) : (packBeats bytes).length = beatsNeeded bytes.length :=
  packBeatsN_length _ _

/-- Beats behind those of a buffer are not read. -/
theorem bufferOf_packBeats_append (bytes : List Byte) (more : List Beat) :
    bufferOf bytes.length (packBeats bytes ++ more) = bytes := by
  rw [bufferOf, List.flatMap_append, lanes_packBeats, List.append_assoc, List.take_left]

/-- From a valid state, `UPDATE` over the beats of a buffer leaves the by-value result and takes exactly these beats. -/
theorem exec_update_packBeats {bytes : List Byte} {more : List Beat} {s : State} (hl : bytes.length < 2 ^ 32)
    (hv : s.valid) (hdata : s.data = packBeats bytes ++ more) :
    exec (.update (BitVec.ofNat 32 bytes.length)) s = .next { s with
      s1 := (byValueResult (s.s1, s.s2) bytes).1
      s2 := (byValueResult (s.s1, s.s2) bytes).2
      data := more } := by
  have hlen : (BitVec.ofNat 32 bytes.length).toNat = bytes.length := Nat.mod_eq_of_lt hl
  have hdrop : s.data.drop (beatsNeeded bytes.length) = more := by
    rw [hdata, ← packBeats_length, List.drop_left]
  have hbeats : beatsNeeded (BitVec.ofNat 32 bytes.length).toNat ≤ s.data.length := by
    simp [hlen, hdata]
  -- from a valid state both readings of `OOR_MODEL` agree, and `anyInRange` states the reference result
  obtain ⟨⟨q, hexec, ⟨-, hempty, href⟩, -⟩, hmodel⟩ := updateFollowsItsOorModel .anyInRange _ s hbeats
  have hq : q = byValueResult (s.s1, s.s2) bytes := by
    rw [hlen] at hempty href
    by_cases hb : bytes = []
    · subst hb
      rw [hempty rfl, byValueResult_nil]
    · rw [href (List.length_pos_of_ne_nil hb) hv, hdata, bufferOf_packBeats_append, byValueResult_of_ne_nil hb]
  rw [← hmodel (.inl hv), hexec, hlen, hdrop, hq]

/-- Room for `k + 1` responses is room for one, and for `k` more behind it. -/
theorem hasRoomFor_succ {α : Type} {depth : Option Nat} {q : List α} {k : Nat}
    (h : hasRoomFor depth q (k + 1) = true) :
    hasRoom depth q = true ∧ ∀ x, hasRoomFor depth (q ++ [x]) k = true := by
  cases depth with
  | none => exact ⟨rfl, fun _ => rfl⟩
  | some d =>
    simp only [hasRoomFor, hasRoom, decide_eq_true_eq, List.length_append, List.length_singleton] at h ⊢
    exact ⟨by omega, fun _ => by omega⟩

/-- Settles O48: two writes set up the pair, `UPDATE` leaves the by-value result, and two reads send it. -/
theorem callIsTheByValueContract : Obligations.CallIsTheByValueContract := by
  intro v1 v2 bytes s h1 h2 hl hf hp hroom r
  obtain ⟨hroom1, hrest⟩ := hasRoomFor_succ hroom
  obtain ⟨hroom2, -⟩ := hasRoomFor_succ (hrest r.1)
  have hout : s.rsp ++ [r.1] ++ [r.2] = s.rsp ++ [r.1, r.2] := List.append_assoc ..
  calc runCore 5 { s with cmd := (Pseudo.call v1 v2 bytes).words, data := packBeats bytes }
    _ = runCore 4 { s with
          s1 := v1
          cmd := [.wr .s2 v2, .update (BitVec.ofNat 32 bytes.length), .rd .s1, .rd .s2].map encode
          data := packBeats bytes } :=
      runCore_succ_of_encode rfl hp hf rfl (exec_wr_of_writable (r := .s1) rfl v1 _)
    _ = runCore 3 { s with
          s1 := v1
          s2 := v2
          cmd := [.update (BitVec.ofNat 32 bytes.length), .rd .s1, .rd .s2].map encode
          data := packBeats bytes } :=
      runCore_succ_of_encode rfl hp hf rfl (exec_wr_of_writable (r := .s2) rfl v2 _)
    _ = runCore 2 { s with s1 := r.1, s2 := r.2, cmd := [.rd .s1, .rd .s2].map encode, data := [] } :=
      runCore_succ_of_encode rfl hp hf rfl (exec_update_packBeats hl ⟨h1, h2⟩ (List.append_nil _).symm)
    _ = runCore 1 { s with
          s1 := r.1, s2 := r.2, cmd := [.rd .s2].map encode, data := [], rsp := s.rsp ++ [r.1] } :=
      runCore_succ_of_encode rfl hp hf rfl (exec_rd_of_room (by exact hroom1) .s1)
    _ = runCore 0 { s with s1 := r.1, s2 := r.2, cmd := [], data := [], rsp := s.rsp ++ [r.1] ++ [r.2] } :=
      runCore_succ_of_encode rfl hp hf rfl (exec_rd_of_room (by exact hroom2) .s2)
    _ = _ := by rw [hout, runCore_zero]

end Sys2Proof.Machine
end

section
/-! SUPPORT. The arithmetic and the results of UPDATE (41_update R121 to R141): the byte steps over the integers, the
three regimes and the reference recurrence, chunked streams, and starts out of range. -/

namespace Sys2Proof.Machine

/-! ## The machine and the three regimes -/

/-- Settles O32: the machine's beats compute the pseudocode, by induction over the groups and the blocks. -/
theorem updateFollowsTheThreeRegimes : Obligations.UpdateFollowsTheThreeRegimes := by
  intro n s hd
  by_cases hn : n = 0#32
  · subst hn
    exact ⟨(1#32, 0#32), rfl, updateUnder_zero Config.oorModel s⟩
  · exact ⟨updatePair Config.oorModel n s, updateRegimes_eq_updatePair hn hd rfl,
      updateUnder_of_beats hn hd Config.oorModel⟩

/-- Settles O50: the scratch in which the beats ran out is the one both runs go through. -/
theorem waitingUpdateKeepsItsOorModel : Obligations.WaitingUpdateKeepsItsOorModel :=
  fun m n s more h => ⟨scratchAfterBeats m n s, updateUnder_of_missing h m, updateUnder_append m h more⟩

/-- UPDATE reads its start only through the pair that the three regimes give. -/
theorem exec_update_congr {n : Word} {s : State} (hd : beatsNeeded n.toNat ≤ s.data.length) {q : Pair}
    (h : updateRegimes n.toNat (s.s1, s.s2) s.data = updateRegimes n.toNat q s.data) :
    exec (.update n) s = exec (.update n) { s with s1 := q.1, s2 := q.2 } := by
  obtain ⟨r, hr, hexec⟩ := updateFollowsTheThreeRegimes n s hd
  obtain ⟨r', hr', hexec'⟩ := updateFollowsTheThreeRegimes n { s with s1 := q.1, s2 := q.2 } hd
  obtain ⟨rfl, -⟩ := Prod.mk.inj (Option.some.inj (hr.symm.trans (h.trans hr')))
  rw [hexec, hexec']

/-- Settles O31: the regime of 1 to 15 bytes is one fold over one beat. -/
theorem shortUpdateReducesEveryByte : Obligations.ShortUpdateReducesEveryByte := by
  intro n s v rest h1 h15 hdata
  have hb : beatsNeeded n.toNat = 1 := by unfold beatsNeeded; omega
  obtain ⟨r, hr, hexec⟩ := updateFollowsTheThreeRegimes n s (by rw [hb, hdata]; exact Nat.le_add_left ..)
  rw [updateRegimes_of_short h1 (by omega), hdata, shortRegime] at hr
  obtain ⟨rfl, -⟩ := Prod.mk.inj (Option.some.inj hr)
  rw [hexec, hb, hdata]
  rfl

/-- Settles O35: whether it waited or not, an UPDATE ends with a pair that is reduced. -/
theorem updateLeavesAValidState : Obligations.UpdateLeavesAValidState := by
  refine ⟨fun n s hd => ?_, fun s t u hp hw hstep hidle => ?_⟩
  · obtain ⟨⟨r, hexec, -, hr⟩, -⟩ := updateFollowsItsOorModel Config.oorModel n s hd
    exact ⟨_, hexec, hr⟩
  · obtain rfl := Host.Outcome.next.inj ((step_of_waiting_update hp).symm.trans hstep)
    obtain ⟨hdone, hrun⟩ | ⟨-, hrun⟩ := runUpdate_cases u { s with progress := none } <;> rw [hrun] at hidle ⊢
    · obtain ⟨-, -, -, hr⟩ | ⟨hw', -⟩ := takeBeats_cases hw s.data
      · exact hr
      · rw [not_isDone_of_wf hw'] at hdone
        contradiction
    · contradiction

/-! ## The arithmetic -/

/-- Settles O26: the two functions as numbers, and the four values of R121. -/
theorem arithmeticIsModular : Obligations.ArithmeticIsModular := by
  refine ⟨add32_toNat, red_toNat, ?_, ?_, ?_, ?_⟩ <;> decide

theorem reduce_of_inRange {q : Pair} (h : inRange q) : reduce q = q := Prod.ext (red_of_lt h.1) (red_of_lt h.2)

/-- Settles O28: what `Reduce` leaves is in range, and it keeps what is in range. -/
theorem reduceIsIdempotent : Obligations.ReduceIsIdempotent := fun q =>
  ⟨rfl, red_lt q.1, red_lt q.2, fun h1 h2 => reduce_of_inRange ⟨h1, h2⟩, reduce_of_inRange (reduce_inRange q)⟩

theorem stepR_fst_toNat (q : Pair) (x : Byte) :
    (stepR q x).1.toNat = (q.1.toNat + x.toNat) % 2 ^ 32 % 65521 := by
  rw [stepR, red_toNat, add32_toNat, byte_setWidth_toNat]

theorem stepR_snd_toNat (q : Pair) (x : Byte) :
    (stepR q x).2.toNat = (q.2.toNat + (stepR q x).1.toNat) % 2 ^ 32 % 65521 := by
  rw [stepR, red_toNat, add32_toNat]

/-- Settles O27: a valid pair leaves both sums far below 2^32. -/
theorem stepRIsTheExactRecurrence : Obligations.StepRIsTheExactRecurrence := by
  intro a b x
  obtain ⟨ha', hb'⟩ := stepR_inRange (a, b) x
  refine ⟨rfl, rfl, ha', hb', fun ha hb => ?_⟩
  have hx := x.isLt
  rw [stepR_snd_toNat, stepR_fst_toNat]
  dsimp only
  omega

/-- Settles O29: the sums of 16 unreduced steps, for the lanes of one beat. -/
theorem groupHasTheClosedForm : Obligations.GroupHasTheClosedForm := by
  refine ⟨fun a b v => ⟨rfl, ?_⟩, by decide⟩
  have h := foldl_stepU_toNat (lanes v 16) (a, b)
  rwa [lanes_length] at h

/-! ## Sums that do not wrap -/

/-- The unreduced sums over the bytes, from the pair `q`, stay below 2^32: as they never fall, no addition on the way
wraps. -/
def SumsFit (q : Pair) (xs : List Byte) : Prop :=
  q.1.toNat + byteSum xs < 2 ^ 32 ∧ q.2.toNat + xs.length * q.1.toNat + weightedSum xs < 2 ^ 32

/-- Over the integers the unreduced steps have the closed form of R140. -/
theorem foldl_stepExact (xs : List Byte) (e : Nat × Nat) :
    xs.foldl stepExact e = (e.1 + byteSum xs, e.2 + xs.length * e.1 + weightedSum xs) := by
  induction xs generalizing e with
  | nil => simp [byteSum, weightedSum]
  | cons x xs ih =>
    rw [List.foldl_cons, ih, stepExact, byteSum, weightedSum, List.length_cons]
    ext <;> ring

theorem SumsFit.foldl_stepU_toNat {q : Pair} {xs : List Byte} (h : SumsFit q xs) :
    (xs.foldl stepU q).1.toNat = q.1.toNat + byteSum xs ∧
    (xs.foldl stepU q).2.toNat = q.2.toNat + xs.length * q.1.toNat + weightedSum xs := by
  obtain ⟨h1, h2⟩ := Machine.foldl_stepU_toNat xs q
  exact ⟨h1.trans (Nat.mod_eq_of_lt h.1), h2.trans (Nat.mod_eq_of_lt h.2)⟩

/-- The bounds of R136 on the sums of a block. -/
theorem sums_le_of_inRange {q : Pair} (hq : inRange q) {xs : List Byte} (hl : xs.length ≤ 5552) :
    q.1.toNat + byteSum xs ≤ 1481280 ∧ q.2.toNat + xs.length * q.1.toNat + weightedSum xs ≤ 4294690200 := by
  obtain ⟨ha, hb⟩ := hq
  simp only [Config.modulus] at ha hb
  have hbytes := byteSum_le xs
  have hweighted := weightedSum_le xs
  have hstart : xs.length * q.1.toNat ≤ 5552 * 65520 := Nat.mul_le_mul hl (by omega)
  have hsquare : xs.length * (xs.length + 1) ≤ 5552 * 5553 := Nat.mul_le_mul hl (by omega)
  omega

theorem sumsFit_of_inRange {q : Pair} (hq : inRange q) {xs : List Byte} (hl : xs.length ≤ 5552) : SumsFit q xs := by
  have := sums_le_of_inRange hq hl
  unfold SumsFit
  omega

theorem byteSum_replicate (k : Nat) (x : Byte) : byteSum (List.replicate k x) = k * x.toNat := by
  induction k with
  | zero => simp [byteSum]
  | succ k ih =>
    rw [List.replicate_succ, byteSum, ih]
    ring

theorem weightedSum_replicate (k : Nat) (x : Byte) :
    2 * weightedSum (List.replicate k x) = k * (k + 1) * x.toNat := by
  induction k with
  | zero => simp [weightedSum]
  | succ k ih =>
    rw [List.replicate_succ, weightedSum, Nat.mul_add, ih, List.length_replicate]
    ring

/-- Settles O30: the closed form of the sums bounds them, and a block of `0xFF` from `(65520, 65520)` reaches the
bounds. -/
theorem blockSizeIsTheLargestSafeLength : Obligations.BlockSizeIsTheLargestSafeLength := by
  refine ⟨fun q buf hq hl => ?_, ?_, ?_⟩
  · obtain ⟨h1, h2⟩ := (sumsFit_of_inRange hq hl).foldl_stepU_toNat
    dsimp only
    rw [foldl_stepExact]
    exact ⟨h1, h2, sums_le_of_inRange hq hl⟩
  · have hweighted := weightedSum_replicate 5552 0xFF#8
    rw [foldl_stepExact, byteSum_replicate, List.length_replicate]
    simp only [BitVec.toNat_ofNat] at hweighted
    refine Prod.ext rfl ?_
    dsimp only
    omega
  · have hweighted := weightedSum_replicate 5553 0xFF#8
    rw [foldl_stepExact, List.length_replicate]
    simp only [BitVec.toNat_ofNat] at hweighted
    dsimp only
    omega

/-! ## UPDATE and the reference recurrence -/

/-- From a valid start an UPDATE leaves the reference result, under either reading of `OOR_MODEL`. -/
theorem updatePair_eq_ref (m : OorModel) {n : Word} {s : State} (hv : s.valid) (hn : n ≠ 0#32)
    (hd : beatsNeeded n.toNat ≤ s.data.length) :
    updatePair m n s = ref (s.s1, s.s2) (bufferOf n.toNat s.data) := by
  have hpos : 0 < n.toNat := (startUpdate_wf hn s).1
  have h := updateRegimes_eq_updatePair hn hd (valueIsOpen_valid m hv)
  rw [updateRegimes_eq_ref hpos hv hd] at h
  exact (congrArg Prod.fst (Option.some.inj h)).symm

theorem bufferOf_length_of_beats {n : Nat} {d : List Beat} (h : beatsNeeded n ≤ d.length) :
    (bufferOf n d).length = n := by
  apply bufferOf_length
  unfold beatsNeeded at h
  omega

theorem ne_zero_of_one_le {n : Word} (h : 1 ≤ n.toNat) : n ≠ 0#32 := by
  rintro rfl
  contradiction

theorem exec_update_eq_ref {n : Word} {s : State} (hv : s.valid) (hn : 1 ≤ n.toNat)
    (hd : beatsNeeded n.toNat ≤ s.data.length) :
    exec (.update n) s = .next { s with
      s1 := (ref (s.s1, s.s2) (bufferOf n.toNat s.data)).1
      s2 := (ref (s.s1, s.s2) (bufferOf n.toNat s.data)).2
      data := s.data.drop (beatsNeeded n.toNat) } := by
  have hn := ne_zero_of_one_le hn
  rw [← updatePair_eq_ref Config.oorModel hv hn hd]
  exact updateUnder_of_beats hn hd Config.oorModel

/-- Where the first byte's two additions do not wrap, `StepR` acts as from the reduced pair. -/
theorem stepR_reduce {q : Pair} {x : Byte} (h1 : q.1.toNat + x.toNat < 2 ^ 32)
    (h2 : q.2.toNat + (q.1.toNat + x.toNat) % 65521 < 2 ^ 32) : stepR (reduce q) x = stepR q x := by
  have hx := x.isLt
  have hstart : (reduce q).1.toNat = q.1.toNat % 65521 ∧ (reduce q).2.toNat = q.2.toNat % 65521 :=
    ⟨red_toNat q.1, red_toNat q.2⟩
  apply Prod.ext <;> apply BitVec.eq_of_toNat_eq
  · rw [stepR_fst_toNat, stepR_fst_toNat]
    omega
  · rw [stepR_snd_toNat, stepR_snd_toNat, stepR_fst_toNat, stepR_fst_toNat]
    omega

theorem ref_reduce_cons {q : Pair} {x : Byte} (h1 : q.1.toNat + x.toNat < 2 ^ 32)
    (h2 : q.2.toNat + (q.1.toNat + x.toNat) % 65521 < 2 ^ 32) (xs : List Byte) :
    ref (reduce q) (x :: xs) = ref q (x :: xs) :=
  congrArg (ref · xs) (stepR_reduce h1 h2)

/-- Bytes after a stretch of unreduced steps: reduced steps give what the reference recurrence gives from the start of
the stretch, for the sums of the stretch leave room for one reduced step. -/
theorem reduce_foldl_stepR_foldl_stepU {q : Pair} (hq : inRange q) {groups tail : List Byte}
    (hl : groups.length + tail.length ≤ 5552) :
    reduce (tail.foldl stepR (groups.foldl stepU q)) = ref q (groups ++ tail) := by
  have hlg : groups.length ≤ 5552 := by omega
  rw [ref_append, ← reduce_foldl_stepU groups q hq hlg]
  cases tail with
  | nil => rfl
  | cons x xs =>
    obtain ⟨h1, h2⟩ := (sumsFit_of_inRange hq hlg).foldl_stepU_toNat
    obtain ⟨b1, b2⟩ := sums_le_of_inRange hq hlg
    have hx := x.isLt
    have h := ref_reduce_cons (q := groups.foldl stepU q) (x := x) (by omega) (by omega) xs
    have hrange : inRange (ref (groups.foldl stepU q) (x :: xs)) := h ▸ ref_inRange (reduce_inRange _) _
    rw [h]
    exact reduce_of_inRange hrange

/-- Settles O36: the regimes are the recurrence from a valid start, and a tail of `StepU` or of `StepR` ends in the same
reduced pair. -/
theorem updateEqualsTheReferenceRecurrence : Obligations.UpdateEqualsTheReferenceRecurrence := by
  refine ⟨fun n s hv hn hd => exec_update_eq_ref hv hn hd, fun s => ?_, fun q groups tail hq hl => ?_⟩
  · have hzero : exec (.update 0#32) s = .next { s with s1 := 1#32, s2 := 0#32 } := updateUnder_zero Config.oorModel s
    rw [hzero]
    constructor
    · intro h
      have hs := Host.Outcome.next.inj h
      exact Prod.ext (congrArg State.s1 hs).symm (congrArg State.s2 hs).symm
    · intro h
      rw [h]
      rfl
  · rw [reduce_foldl_stepR_foldl_stepU hq hl, ← List.foldl_append]
    exact (reduce_foldl_stepU _ q hq (by rwa [List.length_append])).symm

/-- Settles O39: the closed form of the reference recurrence, for a buffer of `n` bytes. -/
theorem updateHasTheClosedForm : Obligations.UpdateHasTheClosedForm := by
  intro n s hv hn hd
  have hlen := bufferOf_length_of_beats hd
  have h := ref_toNat (bufferOf n.toNat s.data) (s.s1, s.s2) hv
  rw [hlen] at h
  exact ⟨_, exec_update_eq_ref hv hn hd, h⟩

/-- Settles O41: the pair left is the regimes', it is in range, and from a valid start it is the recurrence's. -/
theorem updateResultIsAllowedUnderBothReadings : Obligations.UpdateResultIsAllowedUnderBothReadings := by
  intro m n s hd
  by_cases hn : n = 0#32
  · subst hn
    exact ⟨_, updateUnder_zero Config.oorModel s, resultAllowed_zero m _ _⟩
  · refine ⟨_, updateUnder_of_beats hn hd Config.oorModel, ?_⟩
    cases m with
    | wrap32 => exact updatePair_resultAllowed hn hd .wrap32
    | anyInRange =>
      have hpos : 0 < n.toNat := (startUpdate_wf hn s).1
      exact ⟨updatePair_inRange hn hd _, fun h0 => absurd h0 hpos.ne',
        fun _ hq => updatePair_eq_ref Config.oorModel hq hn hd⟩

/-! ## Streams of chunks -/

/-- The state with one UPDATE for each chunk in the command channel and the beats of the chunks in the data channel. -/
def withChunks (s : State) (chunks : List (List Byte)) : State := { s with
  cmd := chunks.map (fun c => encode (.update (BitVec.ofNat 32 c.length)))
  data := chunks.flatMap packBeats }

/-- The state with the pair `q` and no word and no beat left. -/
def drained (s : State) (q : Pair) : State := { s with s1 := q.1, s2 := q.2, cmd := [], data := [] }

/-- From any state, UPDATE over the beats of a buffer takes exactly these and changes nothing else but the pair; where the
state is valid or the buffer empty, the pair is the by-value result. -/
theorem exec_update_packBeats_any {bytes : List Byte} {more : List Beat} {s : State} (hl : bytes.length < 2 ^ 32)
    (hdata : s.data = packBeats bytes ++ more) :
    ∃ q : Pair, (s.valid ∨ bytes = [] → q = byValueResult (s.s1, s.s2) bytes) ∧
      exec (.update (BitVec.ofNat 32 bytes.length)) s = .next { s with s1 := q.1, s2 := q.2, data := more } := by
  have hlen : (BitVec.ofNat 32 bytes.length).toNat = bytes.length := Nat.mod_eq_of_lt hl
  have hdrop : s.data.drop (beatsNeeded bytes.length) = more := by
    rw [hdata, ← packBeats_length, List.drop_left]
  obtain ⟨q, hq, hexec⟩ := updateFollowsTheThreeRegimes (BitVec.ofNat 32 bytes.length) s (by simp [hlen, hdata])
  rw [hlen, hdrop] at hexec
  refine ⟨q, ?_, hexec⟩
  rintro (hv | rfl)
  · have hs := Host.Outcome.next.inj (hexec.symm.trans (exec_update_packBeats hl hv hdata))
    exact Prod.ext (congrArg State.s1 hs) (congrArg State.s2 hs)
  · exact (Prod.mk.inj (Option.some.inj hq)).1.symm

/-- One chunk of a stream is one step. -/
theorem runCore_withChunks_cons {c : List Byte} (hl : c.length < 2 ^ 32) (cs : List (List Byte)) {s : State}
    (hf : s.f = false) (hp : s.progress = none) :
    ∃ q : Pair, (s.valid ∨ c = [] → q = byValueResult (s.s1, s.s2) c) ∧
      runCore (c :: cs).length (withChunks s (c :: cs)) =
        runCore cs.length (withChunks { s with s1 := q.1, s2 := q.2 } cs) := by
  obtain ⟨q, hq, hexec⟩ :=
    exec_update_packBeats_any (s := { withChunks s (c :: cs) with cmd := (withChunks s cs).cmd }) hl rfl
  exact ⟨q, hq, runCore_succ_of_encode rfl hp hf rfl hexec⟩

/-- A stream of non-empty chunks from a valid state leaves the reference result of all its bytes. -/
theorem runCore_withChunks {chunks : List (List Byte)} (hc : ∀ c ∈ chunks, c ≠ [] ∧ c.length < 2 ^ 32) {s : State}
    (hv : s.valid) (hf : s.f = false) (hp : s.progress = none) :
    runCore chunks.length (withChunks s chunks) = .next (drained s (ref (s.s1, s.s2) chunks.flatten)) := by
  induction chunks generalizing s with
  | nil => rfl
  | cons c cs ih =>
    obtain ⟨⟨hne, hl⟩, hcs⟩ := List.forall_mem_cons.mp hc
    obtain ⟨q, hq, hrun⟩ := runCore_withChunks_cons hl cs hf hp
    have href : q = ref (s.s1, s.s2) c := (hq (.inl hv)).trans (byValueResult_of_ne_nil hne _)
    have hrange : inRange q := href ▸ ref_inRange hv c
    rw [hrun, ih hcs (s := { s with s1 := q.1, s2 := q.2 }) hrange hf hp, List.flatten_cons, ref_append, ← href]
    rfl

/-- Settles O37: by induction on the chunks; the single UPDATE is the stream of one chunk. -/
theorem chunkingDoesNotMatter : Obligations.ChunkingDoesNotMatter := by
  intro chunks s hv hf hp hne hc
  refine ⟨runCore_withChunks hc hv hf hp, fun hl => ?_⟩
  have hflat : chunks.flatten ≠ [] := by
    obtain ⟨c, cs, rfl⟩ := List.exists_cons_of_ne_nil hne
    exact List.append_ne_nil_of_left_ne_nil (hc c List.mem_cons_self).1 _
  have h := runCore_withChunks (List.forall_mem_singleton.mpr ⟨hflat, hl⟩) hv hf hp
  rw [List.flatten_singleton] at h
  rw [← List.append_nil (packBeats chunks.flatten)]
  exact h

/-- An empty chunk makes the stream behind it start from `(1, 0)`, whatever the chunks before it left. -/
theorem runCore_withChunks_of_empty {before after : List (List Byte)} (hb : ∀ c ∈ before, c.length < 2 ^ 32)
    (ha : ∀ c ∈ after, c ≠ [] ∧ c.length < 2 ^ 32) {s : State} (hf : s.f = false) (hp : s.progress = none) :
    runCore (before ++ [] :: after).length (withChunks s (before ++ [] :: after)) =
      .next (drained s (ref (1#32, 0#32) after.flatten)) := by
  induction before generalizing s with
  | nil =>
    obtain ⟨q, hq, hrun⟩ := runCore_withChunks_cons (c := []) (by decide) after hf hp
    have hidentity : q = (1#32, 0#32) := hq (.inr rfl)
    have hrange : inRange q := hidentity ▸ inRange_identity
    rw [List.nil_append, hrun, runCore_withChunks ha (s := { s with s1 := q.1, s2 := q.2 }) hrange hf hp,
      ← hidentity]
    rfl
  | cons c cs ih =>
    obtain ⟨hl, hcs⟩ := List.forall_mem_cons.mp hb
    obtain ⟨q, -, hrun⟩ := runCore_withChunks_cons hl (cs ++ [] :: after) hf hp
    rw [List.cons_append, hrun, ih hcs (s := { s with s1 := q.1, s2 := q.2 }) hf hp]
    rfl

/-- Settles O38: the empty regime does not read the state, and the chunks before it change nothing but `S1` and `S2`. -/
theorem emptyUpdateDiscardsTheStream : Obligations.EmptyUpdateDiscardsTheStream :=
  ⟨fun _ => ⟨rfl, rfl⟩, fun _ _ _ hf hp hb ha => runCore_withChunks_of_empty hb ha hf hp⟩

/-! ## Starts out of range -/

/-- Where no sum wraps, one reduction at the end gives what the recurrence gives from the reduced start. -/
theorem SumsFit.reduce_foldl_stepU {q : Pair} {xs : List Byte} (h : SumsFit q xs) :
    reduce (xs.foldl stepU q) = ref (reduce q) xs := by
  obtain ⟨u1, u2⟩ := h.foldl_stepU_toNat
  obtain ⟨r1, r2⟩ := ref_toNat xs (reduce q) (reduce_inRange q)
  apply Prod.ext <;> apply BitVec.eq_of_toNat_eq
  · rw [reduce, red_toNat, u1, r1, reduce, red_toNat, Nat.mod_add_mod]
  · rw [reduce, red_toNat, u2, r2, reduce, red_toNat, red_toNat]
    exact ((((Nat.mod_modEq _ _).add ((Nat.mod_modEq _ _).mul_left _)).add_right _)).symm

theorem SumsFit.reduce_foldl_stepU_reduce {q : Pair} {xs : List Byte} (h : SumsFit q xs) (hl : xs.length ≤ 5552) :
    reduce (xs.foldl stepU (reduce q)) = reduce (xs.foldl stepU q) := by
  rw [h.reduce_foldl_stepU, Machine.reduce_foldl_stepU xs _ (reduce_inRange q) hl]

/-- The groups and the tail after the blocks, from any pair: unreduced steps over their bytes and one reduction. -/
theorem remGroups_tailAndFinal_eq_some {g t : Nat} (ht : t < 16) (q : Pair) {d : List Beat}
    (h : g + beatsNeeded t ≤ d.length) :
    ((remGroups g q d).bind fun r => tailAndFinal t r.1 r.2) =
      some (reduce ((bufferOf (16 * g + t) d).foldl stepU q), d.drop (g + beatsNeeded t)) := by
  rw [remGroups_eq_some g q (by omega), Option.bind_some, tailAndFinal_eq_some ht _ (by rw [List.length_drop]; omega),
    ← List.foldl_append, ← bufferOf_add, List.drop_drop]

section
variable {n : Nat} {q : Pair} {d : List Beat} (hd : beatsNeeded n ≤ d.length)
include hd

theorem shortRegime_reduce (h0 : 0 < n) (h16 : n < 16)
    (h1 : q.1.toNat + byteSum ((bufferOf n d).take 1) < 2 ^ 32)
    (h2 : q.2.toNat + (q.1.toNat + byteSum ((bufferOf n d).take 1)) % 65521 < 2 ^ 32) :
    shortRegime n (reduce q) d = shortRegime n q d := by
  have hlen := bufferOf_length_of_beats hd
  rw [shortRegime_eq_ref h0 h16 _ hd, shortRegime_eq_ref h0 h16 q hd]
  cases hbuf : bufferOf n d with
  | nil =>
    rw [hbuf, List.length_nil] at hlen
    omega
  | cons x xs =>
    rw [hbuf] at h1 h2
    rw [ref_reduce_cons h1 h2]

/-- The sums of a long update are first reduced at the end of the first block, or of the buffer where it is shorter. -/
theorem longRegime_reduce (h : SumsFit q ((bufferOf n d).take 5552)) : longRegime n (reduce q) d = longRegime n q d := by
  have hfirst : (bufferOf n d).take 5552 = bufferOf (min 5552 n) d := List.take_take
  have hreduce := h.reduce_foldl_stepU_reduce (List.length_take_le 5552 _)
  rw [hfirst] at hreduce
  rw [longRegime_eq_bind, longRegime_eq_bind]
  by_cases hn : n < 5552
  · have hgroups : n % 5552 / 16 + beatsNeeded (n % 16) ≤ d.length := by unfold beatsNeeded at *; omega
    have hbytes : 16 * (n % 5552 / 16) + n % 16 = min 5552 n := by omega
    rw [Nat.div_eq_of_lt hn, blocks, blocks, Option.bind_some, Option.bind_some,
      remGroups_tailAndFinal_eq_some (by omega) _ hgroups, remGroups_tailAndFinal_eq_some (by omega) _ hgroups,
      hbytes, hreduce]
  · obtain ⟨k, hk⟩ := Nat.exists_eq_add_of_le' (show 1 ≤ n / 5552 by omega)
    have hblock : 347 ≤ d.length := by unfold beatsNeeded at hd; omega
    have hbytes : 16 * 347 = min 5552 n := by omega
    rw [hk, blocks_succ, blocks_succ, remGroups_eq_some 347 _ hblock, remGroups_eq_some 347 _ hblock,
      Option.bind_some, Option.bind_some, hbytes, hreduce]

end

/-- Settles O42: after the first reduction the two runs are the same. -/
theorem outOfRangeStartWithoutWrapIsHarmless : Obligations.OutOfRangeStartWithoutWrapIsHarmless := by
  intro n s hn hd first h1 hshort hlong
  apply exec_update_congr hd (q := reduce (s.s1, s.s2))
  by_cases h16 : n.toNat < 16
  · have hfirst : first = (bufferOf n.toNat s.data).take 1 := by simp only [first, if_pos h16]
    rw [hfirst] at h1 hshort
    rw [updateRegimes_of_short hn h16, updateRegimes_of_short hn h16]
    exact (shortRegime_reduce hd hn h16 h1 (hshort h16)).symm
  · have h16 : 16 ≤ n.toNat := Nat.le_of_not_lt h16
    have hfirst : first = (bufferOf n.toNat s.data).take 5552 := by simp only [first, if_neg (Nat.not_lt.mpr h16)]
    rw [hfirst] at h1 hlong
    rw [updateRegimes_of_long h16, updateRegimes_of_long h16]
    exact (longRegime_reduce hd ⟨h1, hlong h16⟩).symm

end Sys2Proof.Machine
end

section
/-! SUPPORT. The fault and the waits (60_exceptions R160 to R173): what a step answers in each case of the command loop,
what the host's ports do, and the faulted state, which only reset leaves. -/

namespace Sys2Proof.Machine

/-! ## The step, by the cases of the command loop -/

theorem step_of_progress {s : State} {g : Progress} (hp : s.progress = some g) : step s = .next (resume g s) := by
  simp only [step, turn, hp]

theorem step_of_word {s : State} {w : CmdWord} {rest : List CmdWord} (hp : s.progress = none) (hc : s.cmd = w :: rest) :
    step s = serve (decode w) { s with cmd := rest } := by
  simp only [step, turn, hp, hc]

theorem step_of_no_word {s : State} (hp : s.progress = none) (hc : s.cmd = []) : step s = .next s := by
  simp only [step, turn, hp, hc]

theorem serve_illegal_of_running {s : State} (hf : s.f = false) (c : Cause) :
    serve (.illegal c) s = .next (raiseFault c s) := by
  simp only [serve, hf, Bool.false_eq_true, if_false]

theorem serve_command_of_running {s : State} (hf : s.f = false) (i : Instr) : serve (.command i) s = exec i s := by
  simp only [serve, hf, Bool.false_eq_true, if_false]

theorem serve_rd_sr_of_faulted {s : State} (hf : s.f = true) : serve (.command (.rd .sr)) s = exec (.rd .sr) s := by
  simp only [serve, faulted, hf, if_true]

theorem serve_of_faulted {s : State} (hf : s.f = true) {d : Verdict} (hd : d ≠ .command (.rd .sr)) :
    serve d s = .next s := by
  simp only [serve, faulted, hf, hd, if_true, if_false]

/-- Settles O8: the running branch of the loop on an illegal word is `raiseFault`. -/
theorem illegalWordEntersTheFaultedState : Obligations.IllegalWordEntersTheFaultedState := by
  intro s w rest c hp hf hc hd
  rw [step_of_word hp hc, hd, serve_illegal_of_running (s := { s with cmd := rest }) hf]
  cases c <;> rfl

/-- Where `F` is set, the invariant leaves `CAUSE` its three codes, and `SR` is `CAUSE * 2 + 1`. -/
theorem sr_of_faulted {s : State} (hi : s.inv) (hf : s.f = true) :
    (s.cause = 1#2 ∧ s.sr = 3#32) ∨ (s.cause = 2#2 ∧ s.sr = 5#32) ∨ (s.cause = 3#2 ∧ s.sr = 7#32) := by
  have hne : s.cause ≠ 0#2 := fun h => nomatch hf.symm.trans (hi.1.mpr h)
  have hcodes : ∀ c : BitVec 2, c ≠ 0#2 → c = 1#2 ∨ c = 2#2 ∨ c = 3#2 := by decide
  rw [sr_eq_ofNat, hf]
  obtain h | h | h := hcodes s.cause hne <;> rw [h] <;> decide

/-- Settles O9: the faulted branch of the loop, on `RD SR` and on any other word. -/
theorem faultedStateDiscardsAllButReadSr : Obligations.FaultedStateDiscardsAllButReadSr := by
  intro s w rest hi hp hf hc
  rw [step_of_word hp hc]
  refine ⟨fun hd hroom => ?_, fun hd => serve_of_faulted (s := { s with cmd := rest }) hf hd, sr_of_faulted hi hf⟩
  rw [hd, serve_rd_sr_of_faulted (s := { s with cmd := rest }) hf]
  exact exec_rd_of_room (s := { s with cmd := rest }) hroom .sr

/-! ## The waits -/

/-- With no beat at hand a waiting UPDATE keeps its scratch, and so stays in progress. -/
theorem runUpdate_of_no_beat {u : UpdateScratch} (hu : u.wf) {s : State} (hd : s.data = []) :
    runUpdate Config.oorModel u s = { s with progress := some (.update u) } := by
  rw [runUpdate_default, hd, takeBeats_nil, if_neg (by simp [not_isDone_of_wf hu]), ← hd]

/-- Settles O12: the loop's wait for a word, and the wait of an UPDATE for its next beat. -/
theorem waitingCoreChangesNothing : Obligations.WaitingCoreChangesNothing := by
  refine ⟨fun s => step_of_no_word, fun s u hp hu hd => ?_⟩
  rw [step_of_waiting_update hp, runUpdate_of_no_beat (s := { s with progress := none }) hu hd, ← hp]

theorem respond_of_full {depth : Option Nat} {s : State} (h : hasRoom depth s.rsp = false) (r : Reg) :
    respond depth r s = { s with progress := some (.read r) } := if_neg (by rw [h]; exact Bool.false_ne_true)

/-- No register is read from the queues or from the command in progress. -/
theorem readReg_congr {s t : State} (h1 : t.s1 = s.s1) (h2 : t.s2 = s.s2) (hf : t.f = s.f) (hc : t.cause = s.cause)
    (r : Reg) : t.readReg r = s.readReg r := by
  cases r <;> simp [State.sr, h1, h2, hf, hc]

/-- An `RD` that goes on sends its register, whatever the host has taken from the response channel meanwhile. -/
theorem respond_resumed {depth : Option Nat} {q : List Word} (h : hasRoom depth q = true) (r : Reg) (s : State) :
    respond depth r { s with progress := none, rsp := q } =
      { s with progress := none, rsp := q ++ [s.readReg r] } := by
  have hread : State.readReg { s with progress := none, rsp := q } r = s.readReg r := readReg_congr rfl rfl rfl rfl r
  simp only [respond, h, if_true, hread]

theorem step_of_waiting_rd {r : Reg} {s : State} (hp : s.progress = some (.read r))
    (hroom : hasRoom Config.rspDepth s.rsp = true) :
    step s = .next { s with progress := none, rsp := s.rsp ++ [s.readReg r] } :=
  (step_of_progress hp).trans (congrArg _ (respond_resumed hroom r s))

/-- Settles O24: on a full channel `respond` only records the `RD`; taking a response makes room, and no register has
changed meanwhile. -/
theorem rdWaitsForRoom : Obligations.RdWaitsForRoom := by
  refine ⟨fun d r s hidle hlen => ?_, fun r s => step_of_waiting_rd⟩
  have hfull : hasRoom (some (d + 1)) s.rsp = false := by simp [hasRoom, hlen]
  have hroom : hasRoom (some (d + 1)) s.rsp.tail = true := by simp [hasRoom, hlen]
  have hsent : { s with progress := none, rsp := s.rsp.tail ++ [s.readReg r] } =
      { s with rsp := s.rsp.tail ++ [s.readReg r] } := by rw [← hidle]
  rw [respond_of_full hfull]
  refine ⟨rfl, respond_of_full (s := { s with progress := none }) hfull r, ?_, fun h => ?_⟩
  · exact (respond_resumed hroom r s).trans hsent
  · rw [step_of_waiting_rd rfl h, readReg_congr (s := s) rfl rfl rfl rfl]
    exact congrArg _ hsent

/-! ## Every event answers a next state -/

theorem exec_answers (i : Instr) (s : State) : ∃ t, exec i s = .next t := by
  cases i with
  | init => exact ⟨_, initSetsTheIdentityState s⟩
  | wr r v =>
    cases hr : r.writable
    · exact ⟨_, exec_wr_of_not_writable hr v s⟩
    · exact ⟨_, exec_wr_of_writable hr v s⟩
  | rd r => exact ⟨_, rfl⟩
  | update n =>
    obtain ⟨-, q, hq⟩ | ⟨-, u, hu⟩ := exec_update_cases n s
    · exact ⟨_, hq⟩
    · exact ⟨_, hu⟩

theorem serve_answers (d : Verdict) (s : State) : ∃ t, serve d s = .next t := by
  cases hf : s.f
  · cases d with
    | illegal c => exact ⟨_, serve_illegal_of_running hf c⟩
    | command i => rw [serve_command_of_running hf]; exact exec_answers i s
  · by_cases hd : d = .command (.rd .sr)
    · rw [hd, serve_rd_sr_of_faulted hf]
      exact exec_answers ..
    · exact ⟨s, serve_of_faulted hf hd⟩

theorem step_answers (s : State) : ∃ t, step s = .next t := by
  cases hp : s.progress with
  | some g => exact ⟨_, step_of_progress hp⟩
  | none =>
    cases hc : s.cmd with
    | nil => exact ⟨s, step_of_no_word hp hc⟩
    | cons w rest => rw [step_of_word hp hc]; exact serve_answers ..

/-- Settles O14: a step answers a next state in every case of the loop, and the host's actions are total functions. -/
theorem everyEventAnswersANextState : Obligations.EveryEventAnswersANextState := by
  intro e s
  cases e with
  | core => exact step_answers s
  | command w => exact ⟨_, rfl⟩
  | beat v => exact ⟨_, rfl⟩
  | take => exact ⟨_, rfl⟩
  | reset => exact ⟨_, rfl⟩

/-! ## The host's ports -/

section
variable {depth : Option Nat} {s : State}

theorem enterCommand_of_room (h : hasRoom depth s.cmd = true) (w : CmdWord) :
    enterCommand depth w s = { s with cmd := s.cmd ++ [w] } := if_pos h

theorem enterCommand_of_full (h : hasRoom depth s.cmd = false) (w : CmdWord) : enterCommand depth w s = s :=
  if_neg (by rw [h]; exact Bool.false_ne_true)

theorem enterBeat_of_room (h : hasRoom depth s.data = true) (v : Beat) :
    enterBeat depth v s = { s with data := s.data ++ [v] } := if_pos h

theorem enterBeat_of_full (h : hasRoom depth s.data = false) (v : Beat) : enterBeat depth v s = s :=
  if_neg (by rw [h]; exact Bool.false_ne_true)

end

/-- Settles O15: each port, with room and without, and the response channel by its first word. -/
theorem hostPortsAreQueues : Obligations.HostPortsAreQueues := by
  intro depth w v s
  refine ⟨fun h => enterCommand_of_room h w, fun h => enterCommand_of_full h w, fun h => enterBeat_of_room h v,
    fun h => enterBeat_of_full h v, fun x rest h => ?_⟩
  rw [oldestResponse, takeResponse, h]
  exact ⟨rfl, rfl⟩

/-! ## The faulted state -/

/-- What lies between two states of a faulted machine with no reset in between (60_exceptions R166, R167): the registers
and the latch stand, beats are only added, and the one word the core may have sent is `SR`. -/
structure StaysFaulted (s t : State) : Prop where
  s1 : t.s1 = s.s1
  s2 : t.s2 = s.s2
  f : t.f = s.f
  cause : t.cause = s.cause
  data : s.data <+: t.data
  rsp : ∀ v ∈ t.rsp, v ∈ s.rsp ∨ v = s.sr

/-- The word sent in the second part is the first state's `SR` too, since the latch stands. -/
theorem StaysFaulted.trans {s t u : State} (h : StaysFaulted s t) (h' : StaysFaulted t u) : StaysFaulted s u where
  s1 := h'.s1.trans h.s1
  s2 := h'.s2.trans h.s2
  f := h'.f.trans h.f
  cause := h'.cause.trans h.cause
  data := h.data.trans h'.data
  rsp v hv := by
    obtain hv | rfl := h'.rsp v hv
    · exact h.rsp v hv
    · exact .inr (readReg_congr h.s1 h.s2 h.f h.cause .sr)

/-- The command channel and the command in progress are no part of it. -/
theorem StaysFaulted.of_commands (s : State) (p : Option Progress) (c : List CmdWord) :
    StaysFaulted s { s with progress := p, cmd := c } := ⟨rfl, rfl, rfl, rfl, ⟨[], List.append_nil _⟩, fun _ => .inl⟩

theorem StaysFaulted.refl (s : State) : StaysFaulted s s := .of_commands s s.progress s.cmd

theorem respond_sr_staysFaulted (depth : Option Nat) (s : State) : StaysFaulted s (respond depth .sr s) := by
  obtain ⟨-, h⟩ | ⟨-, h⟩ := respond_cases depth .sr s <;> rw [h]
  · exact ⟨rfl, rfl, rfl, rfl, ⟨[], List.append_nil _⟩, fun v hv => by simpa using hv⟩
  · exact .of_commands ..

/-- Of the six things a step can do, four are left where `F` is set, and the command that goes on there can only be
`RD SR`. -/
theorem step_staysFaulted {s t : State} (hi : s.inv) (hf : s.f = true) (h : step s = .next t) : StaysFaulted s t := by
  obtain ⟨g, hp, rfl⟩ | ⟨-, -, rfl⟩ | ⟨w, rest, -, -, -, -, rfl⟩ | ⟨w, rest, -, -, -, -, rfl⟩ |
    ⟨w, rest, c, -, -, hrun, -, -⟩ | ⟨w, rest, i, -, -, hrun, -, -⟩ := step_cases h
  · have hfit := hi.2 g hp
    cases g with
    | read r =>
      obtain rfl : r = .sr := hfit hf
      exact (StaysFaulted.of_commands s none s.cmd).trans (respond_sr_staysFaulted ..)
    | update u => exact nomatch hf.symm.trans hfit.1
  · exact .refl t
  · exact (StaysFaulted.of_commands s s.progress rest).trans (respond_sr_staysFaulted ..)
  · exact .of_commands ..
  · exact nomatch hf.symm.trans hrun
  · exact nomatch hf.symm.trans hrun

theorem enterCommand_staysFaulted (depth : Option Nat) (w : CmdWord) (s : State) :
    StaysFaulted s (enterCommand depth w s) := by
  cases h : hasRoom depth s.cmd
  · rw [enterCommand_of_full h]
    exact .refl s
  · rw [enterCommand_of_room h]
    exact .of_commands ..

theorem enterBeat_staysFaulted (depth : Option Nat) (v : Beat) (s : State) : StaysFaulted s (enterBeat depth v s) := by
  cases h : hasRoom depth s.data
  · rw [enterBeat_of_full h]
    exact .refl s
  · rw [enterBeat_of_room h]
    exact ⟨rfl, rfl, rfl, rfl, ⟨[v], rfl⟩, fun _ => .inl⟩

theorem takeResponse_staysFaulted (s : State) : StaysFaulted s (takeResponse s) :=
  ⟨rfl, rfl, rfl, rfl, ⟨[], List.append_nil _⟩, fun _ hv => .inl (List.mem_of_mem_tail hv)⟩

theorem applyEvent_staysFaulted {e : Event} {s t : State} (hi : s.inv) (hf : s.f = true) (he : e ≠ .reset)
    (h : applyEvent e s = .next t) : StaysFaulted s t := by
  cases e with
  | core => exact step_staysFaulted hi hf h
  | command w => cases h; exact enterCommand_staysFaulted ..
  | beat v => cases h; exact enterBeat_staysFaulted ..
  | take => cases h; exact takeResponse_staysFaulted s
  | reset => contradiction

theorem runEvents_staysFaulted {es : List Event} {s : State} (hi : s.inv) (hf : s.f = true) (hes : Event.reset ∉ es) :
    ∃ t, runEvents es s = .next t ∧ StaysFaulted s t := by
  induction es generalizing s with
  | nil => exact ⟨s, rfl, .refl s⟩
  | cons e es ih =>
    obtain ⟨he, hes⟩ := List.ne_and_not_mem_of_not_mem_cons hes
    obtain ⟨x, hx⟩ := everyEventAnswersANextState e s
    have hfirst := applyEvent_staysFaulted hi hf he.symm hx
    obtain ⟨t, ht, hrest⟩ := ih (applyEvent_keeps_inv hi hx) (hfirst.f.trans hf) hes
    exact ⟨t, by rw [runEvents, hx]; exact ht, hfirst.trans hrest⟩

/-- Settles O11, by induction on the events: each of them answers a state that meets the invariant, still faulted. -/
theorem faultIsStickyUntilReset : Obligations.FaultIsStickyUntilReset := by
  intro es s hi hf hes
  obtain ⟨t, ht, h⟩ := runEvents_staysFaulted hi hf hes
  obtain ⟨more, hdata⟩ := h.data
  exact ⟨t, ht, h.s1, h.s2, h.f.trans hf, h.cause, ⟨more, hdata.symm⟩, h.rsp⟩

end Sys2Proof.Machine
end

section
/-! SUPPORT. Reset (70_reset_and_hazards R190 to R193), and programs whose beats and room are there (R204): what such a
program needs before it starts, what it leaves, and the induction that takes it to its end. -/

namespace Sys2Proof.Machine

/-! ## Programs -/

theorem beatsOf_cons (i : Instr) (is : List Instr) : beatsOf (i :: is) = beatsOf [i] + beatsOf is := by
  cases i <;> simp [beatsOf]

theorem beatsOf_append (is js : List Instr) : beatsOf (is ++ js) = beatsOf is + beatsOf js := by
  induction is with
  | nil => simp [beatsOf]
  | cons i is ih => rw [List.cons_append, beatsOf_cons, ih, beatsOf_cons i is, Nat.add_assoc]

theorem readsOf_cons (i : Instr) (is : List Instr) : readsOf (i :: is) = readsOf [i] + readsOf is := by
  cases i <;> simp [readsOf]

theorem readsOf_append (is js : List Instr) : readsOf (is ++ js) = readsOf is + readsOf js := by
  induction is with
  | nil => simp [readsOf]
  | cons i is ih => rw [List.cons_append, readsOf_cons, ih, readsOf_cons i is, Nat.add_assoc]

theorem hasRoomFor_mono {α : Type} {depth : Option Nat} {q : List α} {j k : Nat} (hjk : j ≤ k)
    (h : hasRoomFor depth q k = true) : hasRoomFor depth q j = true := by
  cases depth with
  | none => rfl
  | some d =>
    simp only [hasRoomFor, decide_eq_true_eq] at h ⊢
    omega

/-- Items that have entered a queue have used up room for as many. -/
theorem hasRoomFor_append {α : Type} (depth : Option Nat) (q out : List α) (k : Nat) :
    hasRoomFor depth (q ++ out) k = hasRoomFor depth q (out.length + k) := by
  cases depth with
  | none => rfl
  | some d => simp only [hasRoomFor, List.length_append, Nat.add_assoc]

/-- All that the commands `is` need to run to their end without a wait (70_reset_and_hazards R204). -/
structure Supplied (is : List Instr) (s : State) : Prop where
  wf : ∀ i ∈ is, i.wf = true
  f : s.f = false
  progress : s.progress = none
  cmd : is.map encode <+: s.cmd
  beats : beatsOf is ≤ s.data.length
  room : hasRoomFor Config.rspDepth s.rsp (readsOf is) = true

/-- What lies between the state in which the commands `is` start and the one in which they have ended (20_memory R60,
R61): their words and their beats are taken, their responses sent. -/
structure Completed (is : List Instr) (s t : State) : Prop where
  cmd : s.cmd = is.map encode ++ t.cmd
  progress : t.progress = s.progress
  f : t.f = s.f
  cause : t.cause = s.cause
  data : t.data = s.data.drop (beatsOf is)
  rsp : ∃ out, t.rsp = s.rsp ++ out ∧ out.length = readsOf is

theorem Completed.nil (s : State) : Completed [] s s := ⟨rfl, rfl, rfl, rfl, rfl, [], (List.append_nil _).symm, rfl⟩

theorem Completed.append {is js : List Instr} {s t u : State} (h : Completed is s t) (h' : Completed js t u) :
    Completed (is ++ js) s u where
  cmd := by rw [h.cmd, h'.cmd, List.map_append, List.append_assoc]
  progress := h'.progress.trans h.progress
  f := h'.f.trans h.f
  cause := h'.cause.trans h.cause
  data := by rw [h'.data, h.data, List.drop_drop, beatsOf_append]
  rsp := by
    obtain ⟨out, hrsp, hlen⟩ := h.rsp
    obtain ⟨out', hrsp', hlen'⟩ := h'.rsp
    exact ⟨out ++ out', by rw [hrsp', hrsp, List.append_assoc], by rw [List.length_append, hlen, hlen', readsOf_append]⟩

theorem Supplied.of_append {is js : List Instr} {s : State} (h : Supplied (is ++ js) s) : Supplied is s where
  wf i hi := h.wf i (List.mem_append_left js hi)
  f := h.f
  progress := h.progress
  cmd := by
    have hcmd := h.cmd
    rw [List.map_append] at hcmd
    exact (List.prefix_append ..).trans hcmd
  beats := by
    have hbeats := h.beats
    rw [beatsOf_append] at hbeats
    exact (Nat.le_add_right ..).trans hbeats
  room := by
    have hroom := h.room
    rw [readsOf_append] at hroom
    exact hasRoomFor_mono (Nat.le_add_right ..) hroom

/-- The first commands of a program leave the later ones what these need. -/
theorem Supplied.after_append {is js : List Instr} {s t : State} (h : Supplied (is ++ js) s) (hc : Completed is s t) :
    Supplied js t where
  wf i hi := h.wf i (List.mem_append_right is hi)
  f := hc.f.trans h.f
  progress := hc.progress.trans h.progress
  cmd := by
    have hcmd := h.cmd
    rw [List.map_append, hc.cmd] at hcmd
    exact (List.prefix_append_right_inj _).mp hcmd
  beats := by
    have hbeats := h.beats
    rw [beatsOf_append] at hbeats
    rw [hc.data, List.length_drop]
    omega
  room := by
    obtain ⟨out, hrsp, hlen⟩ := hc.rsp
    have hroom := h.room
    rwa [readsOf_append, ← hlen, ← hasRoomFor_append, ← hrsp] at hroom

/-- The next state of each command: an `RD` finds its room and an `UPDATE` its beats. -/
theorem step_of_supplied {i : Instr} {s : State} (h : Supplied [i] s) : ∃ t, step s = .next t ∧ Completed [i] s t := by
  obtain ⟨rest, hc⟩ := h.cmd
  rw [stepRunsTheDecodedCommand s _ rest i h.progress h.f hc.symm
    (decodeOfEncodeIsTheCommand i (h.wf i (List.mem_singleton_self i)))]
  have hnone : s.rsp = s.rsp ++ [] := (List.append_nil _).symm
  cases i with
  | init => exact ⟨_, initSetsTheIdentityState _, hc.symm, rfl, rfl, rfl, rfl, [], hnone, rfl⟩
  | wr r v =>
    have hr : r.writable = true := h.wf _ (List.mem_singleton_self _)
    exact ⟨_, exec_wr_of_writable hr v _, by rw [writeReg_cmd]; exact hc.symm, writeReg_progress .., writeReg_f ..,
      writeReg_cause .., writeReg_data .., [], (writeReg_rsp ..).trans hnone, rfl⟩
  | rd r =>
    obtain ⟨hroom, -⟩ := hasRoomFor_succ (k := 0) h.room
    exact ⟨_, exec_rd_of_room (s := { s with cmd := rest }) hroom r, hc.symm, rfl, rfl, rfl, rfl, [_], rfl, rfl⟩
  | update n =>
    obtain ⟨⟨q, hexec, -⟩, -⟩ := updateFollowsItsOorModel Config.oorModel n { s with cmd := rest } h.beats
    exact ⟨_, hexec, hc.symm, rfl, rfl, rfl, rfl, [], hnone, rfl⟩

theorem runCore_of_supplied {is : List Instr} {s : State} (h : Supplied is s) :
    ∃ t, runCore is.length s = .next t ∧ Completed is s t := by
  induction is generalizing s with
  | nil => exact ⟨s, runCore_zero s, .nil s⟩
  | cons i is ih =>
    obtain ⟨m, hm, hfirst⟩ := step_of_supplied (Supplied.of_append (is := [i]) (js := is) h)
    obtain ⟨t, ht, hrest⟩ := ih (Supplied.after_append (is := [i]) h hfirst)
    exact ⟨t, (runCore_succ hm).trans ht, hfirst.append hrest⟩

/-- Settles O47, by induction on the program: a command that has completed leaves the rest of it supplied. -/
theorem everyProgramRunsToItsEnd : Obligations.EveryProgramRunsToItsEnd := by
  intro is s behind hwf hf hp hc hbeats hroom
  obtain ⟨t, ht, h⟩ := runCore_of_supplied ⟨hwf, hf, hp, ⟨behind, hc.symm⟩, hbeats, hroom⟩
  obtain ⟨out, hrsp, hlen⟩ := h.rsp
  have hbehind : t.cmd = behind := List.append_cancel_left (h.cmd.symm.trans hc)
  exact ⟨t, out, ht, hbehind, h.progress.trans hp, h.f.trans hf, h.cause, h.data, hrsp, hlen⟩

/-! ## Reset -/

/-- Settles O17: the state after reset is idle and running, so the first word entered is the next one taken. -/
theorem resetWorksInEveryState : Obligations.ResetWorksInEveryState := by
  obtain ⟨h1, h2, -, hf, hcause, -, hcmd, hdata, hrsp, hp⟩ := resetStateIsAsStated
  refine fun s => ⟨State.reset, rfl, h1, h2, hf, hcause, hp, hcmd, hdata, hrsp, fun d w i hd => ?_⟩
  have hroom : hasRoom (some (d + 1)) State.reset.cmd = true := by simp [hasRoom, hcmd]
  rw [enterCommand_of_room hroom]
  exact stepRunsTheDecodedCommand _ w [] i hp hf (by rw [hcmd, List.nil_append]) hd

/-- Settles O18: `INIT` and `UPDATE #0` write the same two registers, reset sets every field, and in the faulted state
only `RD SR` is executed. -/
theorem threeWaysToTheIdentityState : Obligations.ThreeWaysToTheIdentityState := by
  refine ⟨fun s => ⟨?_, ?_⟩, fun s w rest hf hp hc hd => ?_⟩
  · exact ⟨_, initSetsTheIdentityState s, updateUnder_zero Config.oorModel s, rfl, rfl, rfl, rfl, rfl, rfl⟩
  · obtain ⟨h1, h2, -, -, -, hsr, hcmd, hdata, hrsp, -⟩ := resetStateIsAsStated
    exact ⟨State.reset, rfl, h1, h2, hsr, hcmd, hdata, hrsp⟩
  · have hne : decode w ≠ .command (.rd .sr) := by
      obtain hd | hd := hd <;> rw [hd] <;> decide
    rw [step_of_word hp hc]
    exact serve_of_faulted (s := { s with cmd := rest }) hf hne

end Sys2Proof.Machine
end
